-- ==== Sys2Proof/Word.lean ====
section
/-! DEFINITION. The word types: bytes, 9-bit packed codes, 32-bit raw coordinates. -/

namespace Sys2Proof

/-- A byte (spec 00_scope.md section 6): 8 bits, unsigned when read as a number. -/
abbrev Byte := BitVec 8

/-- A packed code (R60, R61): 9 bits, bit 8 the literal flag, bits 7 to 0 the payload. -/
abbrev Code := BitVec 9

/-- A coordinate field as it is stored (R46, R72): 32 bits. `BitVec.toInt` is the spec's `s32`. -/
abbrev Raw := BitVec 32

end Sys2Proof
end

