-- ==== Sys2Proof/Config.lean ====
section
/-! DEFINITION. The hardwired constants of R4 (R29) and the one free value of the model. -/

namespace Sys2Proof.Config

/-- CHUNK (R4): compressed-block stride in bytes. -/
@[simp] abbrev chunk : Nat := 144

/-- CODE_W (R4, R60): width of a packed code in bits. -/
@[simp] abbrev codeW : Nat := 9

/-- XWIN (R4): XOR window in bytes. -/
@[simp] abbrev xwin : Nat := 32

/-- REC (R4): logical record stride in bytes. -/
@[simp] abbrev recordLen : Nat := 32

/-- MINLEN (R4, R110): least stream length the extractor works on. -/
@[simp] abbrev minLen : Nat := 64

/-- T_OPEN4 (R4, R69): type byte of Opening Record 4. -/
@[simp] abbrev tOpen4 : Byte := 0x14

/-- T_OPEN9 (R4, R69): type byte of Opening Record 9. -/
@[simp] abbrev tOpen9 : Byte := 0x19

/-- T_CLOSE9 (R4, R69): type byte of Closing Record 9. -/
@[simp] abbrev tClose9 : Byte := 0x29

/-- OFF_TYPE (R4): offset of the type byte in a record. -/
@[simp] abbrev offType : Nat := 0

/-- OFF_VER (R4, R70): offset of the format-version byte in an OPEN4 record. -/
@[simp] abbrev offVer : Nat := 16

/-- VER_MIN (R4, R113, R120): least format version whose mode byte is taken. -/
@[simp] abbrev verMin : Nat := 7

/-- OFF_MODE (R4, R70): offset of the mode byte in an OPEN4 record. -/
@[simp] abbrev offMode : Nat := 28

/-- OFF_LAT (R4, R71): offset of the latitude field in an OPEN9 or CLOSE9 record. -/
@[simp] abbrev offLat : Nat := 21

/-- OFF_LON (R4, R71): offset of the longitude field in an OPEN9 or CLOSE9 record. -/
@[simp] abbrev offLon : Nat := 25

/-- GPS_MODE (R4, R29, R132): the mode value meaning GPS-enabled, 8 bits wide. -/
@[simp] abbrev gpsMode : Byte := 6

/-- SCALE (R4, R134): raw coordinate units per degree. -/
@[simp] abbrev scale : Nat := 100000

/-- FREE VALUE. What the input space holds at address `a` when the host has not written that address
(R160: `IN` is unspecified after reset; 93 entry U5: a START before the host has written runs on
whatever is there). No body: nothing can be proved of the value. DESIGN CHOICE, safe: log entry 2. -/
opaque inputPowerOn : Nat → Byte

end Sys2Proof.Config
end

