-- ==== Sys2Proof/Syntax.lean ====
section
/-! DEFINITION. The instruction set: one constructor per row of spec/opcode_table.json (R64, R69, R74). -/

namespace Sys2Proof

/-- The ten operations. Codes and records carry the operands their encodings hold; the three rows of
format OP have none. -/
inductive Instr
  /-- END (R87): end of this chunk. -/
  | endBlock
  /-- ZRUN n (R88): a run of n zero bytes. -/
  | zrun (n : Byte)
  /-- LIT b (R86): one literal byte. -/
  | lit (b : Byte)
  /-- OPEN4 (R113): Opening Record 4 with its version and mode bytes (R70). -/
  | open4 (ver mode : Byte)
  /-- OPEN9 (R114): Opening Record 9 with its two coordinate fields (R71). -/
  | open9 (lat lon : Raw)
  /-- CLOSE9 (R115): Closing Record 9 with its two coordinate fields (R71). -/
  | close9 (lat lon : Raw)
  /-- SKIP (R116): a record of any other type. -/
  | skip (ty : Byte)
  /-- XORB (R100): rewrite one stream byte. -/
  | xorb
  /-- START (R161): the host begins a run. -/
  | start
  /-- FINALIZE (R130): apply the policy and end the run. -/
  | finalize
  deriving DecidableEq, Repr

/-- Which alphabet an instruction belongs to (R1, R74). -/
inductive Format
  /-- A 9-bit packed code of unit 1. -/
  | c9
  /-- An OPEN4 record. -/
  | r4
  /-- An OPEN9 or CLOSE9 record. -/
  | r9
  /-- A skipped record. -/
  | r0
  /-- No encoding: performed by the phase machine. -/
  | op
  deriving DecidableEq, Repr

/-- The format column of the opcode table. -/
def Instr.format : Instr → Format
  | .endBlock => .c9
  | .zrun _ => .c9
  | .lit _ => .c9
  | .open4 _ _ => .r4
  | .open9 _ _ => .r9
  | .close9 _ _ => .r9
  | .skip _ => .r0
  | .xorb => .op
  | .start => .op
  | .finalize => .op

end Sys2Proof
end

