-- ==== Sys2Proof/WellFormed.lean ====
section
/-! DEFINITION. Which instruction terms an encoding stands for. -/

namespace Sys2Proof

/-- The three type bytes that matter (R69); the other 253 are SKIP. -/
abbrev IsKnownType (ty : Byte) : Prop :=
  ty = Config.tOpen4 ∨ ty = Config.tOpen9 ∨ ty = Config.tClose9

/-- The check of a well-formed instruction: a run has length 1 to 255 (R64: payload 0 is END), and a skipped
record has none of the three known types (R69). Every other operand takes every value (R65, R73). -/
def wellFormed : Instr → Bool
  | .endBlock => true
  | .zrun n => decide (n ≠ 0)
  | .lit _ => true
  | .open4 _ _ => true
  | .open9 _ _ => true
  | .close9 _ _ => true
  | .skip ty => decide (¬ IsKnownType ty)
  | .xorb => true
  | .start => true
  | .finalize => true

/-- A well-formed instruction. -/
abbrev WellFormed (i : Instr) : Prop := wellFormed i = true

end Sys2Proof
end

