-- ==== Sys2Proof/Decode.lean ====
section
/-! DEFINITION. Bit fields and byte order, the decoder of both alphabets, the encoder, the packing of
codes into chunk bytes, and the host's table words. -/

namespace Sys2Proof

/-! ### Bit fields and byte order -/

/-- The code that starts at bit-within-byte offset `bo` of the window `b0`, `b1` (R45, R63):
`(v >> (7 - bo)) & 0x1FF` with `v` the two bytes, most significant first. -/
def codeWindow (b0 b1 : Byte) (bo : Nat) : Code :=
  ((b0 ++ b1 : BitVec 16) >>> (7 - bo)).setWidth 9

/-- The payload `P = code & 0xFF` (R61). -/
def codePayload (c : Code) : Byte := c.setWidth 8

/-- A code from its literal flag and payload: `code = (L, P)` joined, flag first (R61). -/
def codeOf (literal : Bool) (payload : Byte) : Code := BitVec.ofBool literal ++ payload

/-- The big-endian assembly of a coordinate field (R46, R72). -/
def rawOfBytes (b0 b1 b2 b3 : Byte) : Raw := b0 ++ b1 ++ b2 ++ b3

/-- Byte `k` of a coordinate field as stored, byte 0 the most significant (R72). -/
def rawByte (r : Raw) (k : Nat) : Byte := (r >>> (8 * (3 - k))).setWidth 8

/-! ### Decoding -/

/-- Why the decoder rejects some bytes. No whole code and no whole record is ever rejected (R65, R73). -/
inductive DecodeError
  /-- Fewer than two bytes: no code window (R62, R83). -/
  | shortWindow
  /-- The bit-within-byte offset is not 0 to 7 (R14). -/
  | badOffset
  /-- The window is not the 32 bytes of a record (R68). -/
  | notARecord
  deriving DecidableEq, Repr

/-- The opcode map of packed codes (R64), in the order of the table: END, ZRUN, LIT. -/
def decodeCode (c : Code) : Instr :=
  if c = 0 then .endBlock
  else if c.getLsbD 8 = false then .zrun (codePayload c)
  else .lit (codePayload c)

/-- Byte `o` of a record (R68). Only called below the record's length. -/
def recordByte (w : List Byte) (o : Nat) : Byte := w.getD o 0

/-- The coordinate field at record offset `o` (R72, R118). -/
def recordField (w : List Byte) (o : Nat) : Raw :=
  rawOfBytes (recordByte w o) (recordByte w (o + 1)) (recordByte w (o + 2)) (recordByte w (o + 3))

/-- The opcode map of records (R69) on a whole window, by the type byte alone (R68): OPEN4, OPEN9,
CLOSE9, and SKIP last (R74). -/
def decodeRecord (w : List Byte) : Instr :=
  if recordByte w Config.offType = Config.tOpen4 then
    .open4 (recordByte w Config.offVer) (recordByte w Config.offMode)
  else if recordByte w Config.offType = Config.tOpen9 then
    .open9 (recordField w Config.offLat) (recordField w Config.offLon)
  else if recordByte w Config.offType = Config.tClose9 then
    .close9 (recordField w Config.offLat) (recordField w Config.offLon)
  else .skip (recordByte w Config.offType)

/-- The stored form of an instruction: a packed code, or a record's bytes (R60, R68). -/
inductive Encoded
  /-- A 9-bit packed code. -/
  | code (c : Code)
  /-- The bytes of a record, lowest address first. -/
  | record (w : List Byte)
  deriving DecidableEq, Repr

/-- The decoder, total on any code and any bytes, rejecting by name what is not a whole record. -/
def decode : Encoded → Except DecodeError Instr
  | .code c => .ok (decodeCode c)
  | .record w => if w.length = Config.recordLen then .ok (decodeRecord w) else .error .notARecord

/-- The decoder on chunk bytes at a bit-within-byte offset (R62, R63). -/
def decodeCodeBytes (bytes : List Byte) (bo : Nat) : Except DecodeError Instr :=
  match bytes with
  | b0 :: b1 :: _ => if bo < 8 then .ok (decodeCode (codeWindow b0 b1 bo)) else .error .badOffset
  | _ => .error .shortWindow

/-! ### Encoding -/

/-- A record whose unnamed bytes are zero (R75): its type byte and the bytes set at given offsets. -/
def makeRecord (ty : Byte) (fields : List (Nat × Byte)) : List Byte :=
  fields.foldl (fun w f => w.set f.1 f.2) (ty :: List.replicate (Config.recordLen - 1) 0)

/-- The four bytes of a coordinate field at offset `o` (R72). -/
def fieldBytes (o : Nat) (r : Raw) : List (Nat × Byte) :=
  [(o, rawByte r 0), (o + 1, rawByte r 1), (o + 2, rawByte r 2), (o + 3, rawByte r 3)]

/-- The encoder, from R64, R70 and R71. The rows of format OP have no encoding (R74). The bytes that
R70 and R71 mark as not read are written zero (R75): DESIGN CHOICE, safe, log entry 13. -/
def encode : Instr → Option Encoded
  | .endBlock => some (.code 0)
  | .zrun n => some (.code (codeOf false n))
  | .lit b => some (.code (codeOf true b))
  | .open4 ver mode =>
      some (.record (makeRecord Config.tOpen4 [(Config.offVer, ver), (Config.offMode, mode)]))
  | .open9 lat lon =>
      some (.record (makeRecord Config.tOpen9
        (fieldBytes Config.offLat lat ++ fieldBytes Config.offLon lon)))
  | .close9 lat lon =>
      some (.record (makeRecord Config.tClose9
        (fieldBytes Config.offLat lat ++ fieldBytes Config.offLon lon)))
  | .skip ty => some (.record (makeRecord ty []))
  | .xorb => none
  | .start => none
  | .finalize => none

/-! ### Packing codes into chunk bytes (R76: the convention of the test vectors) -/

/-- Bit `p` of the packed stream of `cs`: bit `8 - p mod 9` of code `p div 9` (R62, R76), zero after the
last code. -/
def packedBit (cs : List Code) (p : Nat) : Bool :=
  (cs.getD (p / Config.codeW) 0).getLsbD (8 - p % Config.codeW)

/-- The byte whose bits are `f 0` (most significant) to `f 7` (R44). -/
def byteOfBits (f : Nat → Bool) : Byte :=
  BitVec.ofBool (f 0) ++ BitVec.ofBool (f 1) ++ BitVec.ofBool (f 2) ++ BitVec.ofBool (f 3) ++
    BitVec.ofBool (f 4) ++ BitVec.ofBool (f 5) ++ BitVec.ofBool (f 6) ++ BitVec.ofBool (f 7)

/-- The chunk bytes of a list of codes, padded with zero bits to a whole byte (R76). -/
def packCodes (cs : List Code) : List Byte :=
  (List.range ((Config.codeW * cs.length + 7) / 8)).map fun j =>
    byteOfBits fun i => packedBit cs (8 * j + i)

/-! ### The host's table words -/

/-- The two bytes in which a code lies at bit offset 0 of a chunk (R44, R76). -/
def codeAtStart (c : Code) : List Byte :=
  [(c >>> 1).setWidth 8, (c <<< 7).setWidth 8]

/-- The 32 bytes of a record from its number: byte `k` is bits `8k + 7` to `8k`. -/
def recordOfWord (w : Nat) : List Byte :=
  (List.range Config.recordLen).map fun k => BitVec.ofNat 8 (w >>> (8 * k))

/-- A table word is a packed code when the row has more than one byte and at most two (format C9: nine
bits, so two whole bytes), and a record otherwise (formats R4, R9, R0: a type byte). -/
def isCodeWord (nbits : Nat) : Bool := 8 < nbits && nbits ≤ 16

/-- What the decoder reads from the table word `w` of a row of `nbits` bits, laid out as the hardware
stores it: a code packed at bit 0 of a chunk, or a record's 32 bytes from the type byte up. -/
def decodeTableWord (nbits w : Nat) : Option Instr :=
  if isCodeWord nbits then (decodeCodeBytes (codeAtStart (BitVec.ofNat 9 w)) 0).toOption
  else (decode (.record (recordOfWord w))).toOption

end Sys2Proof
end

