-- ==== Sys2Proof/Machine/State.lean ====
section
/-! DEFINITION. The state of the block (spec 10_state.md), its fault type (empty: R140) and refusal reason, and reset. -/

namespace Sys2Proof.Machine

/-- A byte space: (address, byte) pairs with strictly rising addresses (`Memory.wf` in Ops.lean). An
address not listed holds no value. Log entries 2 and 5. -/
abbrev Memory := List Host.Cell

/-- The phase register `PH` (R11). -/
inductive Phase
  /-- After reset, before the first START. -/
  | idle
  /-- Unit 1 running. -/
  | dec
  /-- Unit 2 running. -/
  | xor
  /-- Unit 3 running. -/
  | scan
  /-- Run ended, result valid. -/
  | done
  deriving DecidableEq, Repr

/-- A captured fix (R22, R23): two raw signed 32-bit integers in units of 1/100000 degree. -/
structure Fix where
  lat : Raw
  lon : Raw
  deriving DecidableEq, Repr

/-- A present result (R25): the entry fix, and the exit fix if there is one. -/
structure Result where
  entry : Fix
  exit : Option Fix
  deriving DecidableEq, Repr

/-- The whole machine. Field docstrings name the register and its rule. Registers with a valid bit are
options, so that the data bits behind a cleared valid bit do not exist (93 entry U4, log entry 6). -/
structure State where
  /-- `IN` (R10, R40): the compressed input, written by the host only. -/
  inp : Memory
  /-- `LEN` (R10): how many bytes the input has. -/
  len : Nat
  /-- `PH` (R11): the phase. -/
  ph : Phase
  /-- `CB` (R12): index in `IN` of the first byte of the current chunk. -/
  cb : Nat
  /-- `BC` (R14): the bit cursor inside the current chunk. -/
  bc : Nat
  /-- `S` (R17, R41): the stream memory. -/
  stream : Memory
  /-- `SL` (R18): the length of `S`. -/
  sl : Nat
  /-- `XI` (R19): index of the next stream byte unit 2 rewrites. -/
  xi : Nat
  /-- `RI` (R20): index in `S` of the next record. -/
  ri : Nat
  /-- `MODE` (R21): the captured mode. -/
  mode : Option Byte
  /-- `ENTRY` (R22): the captured entry fix. -/
  entry : Option Fix
  /-- `EXIT` (R23): the captured exit fix. -/
  exit : Option Fix
  /-- `RES` (R25): the result; `none` is the result none. -/
  res : Option Result
  /-- THE MODEL'S OWN: a START the host has performed and the next step takes up (log entry 3). -/
  startReq : Bool
  deriving DecidableEq, Repr

/-- Why a step stops: never. The block has no fault outcome (R140, R143, 93 "There is no behaviour in this block
whose treatment is `fault`"), so this type has no constructor. Safe: nothing raises it. -/
inductive Fault
  deriving DecidableEq, Repr

/-- Why an instruction has no meaning. The spec's machine refuses nothing (R151). -/
inductive Refusal
  /-- The form the host's interface asks for: an arm of `exec` without a meaning. No arm gives it. Safe. -/
  | notModelled (mnemonic : String)
  deriving DecidableEq, Repr

/-- The machine right after reset (R160). `IN` and `LEN` are unspecified there: nothing is loaded and
`LEN` is 0, DESIGN CHOICE, unsafe, log entry 1. `startReq` is false, DESIGN CHOICE, log entry 3. -/
def State.reset : State where
  inp := []
  len := 0
  ph := .idle
  cb := 0
  bc := 0
  stream := []
  sl := 0
  xi := 32
  ri := 0
  mode := none
  entry := none
  exit := none
  res := none
  startReq := false

end Sys2Proof.Machine
end

