-- ==== Sys2Proof/Machine/Ops.lean ====
section
/-! DEFINITION. The named operations over the two byte spaces and over the registers. The block takes no
exception and returns from none (R140, R146), so no such operation stands here. -/

namespace Sys2Proof.Machine

/-- The outcome of one instruction or one step. -/
abbrev Out := Host.Outcome State Fault Refusal

/-! ### Memory -/

/-- The canonical form: addresses strictly rising. An unlisted address reads as no value, so no listed
byte can equal it. -/
abbrev Memory.wf (m : Memory) : Prop := (m.map Prod.fst).Pairwise (· < ·)

/-- The byte at address `a`, if there is one. -/
def Memory.read (m : Memory) (a : Nat) : Option Byte :=
  match m with
  | [] => none
  | (x, v) :: rest => if x = a then some v else Memory.read rest a

/-- Put byte `b` at address `a` (the spec's `MemWrite` of one byte). -/
def Memory.write (m : Memory) (a : Nat) (b : Byte) : Memory :=
  match m with
  | [] => [(a, b)]
  | (x, v) :: rest =>
    if a < x then (a, b) :: (x, v) :: rest
    else if a = x then (a, b) :: rest
    else (x, v) :: Memory.write rest a b

/-- The cells that hold `bs` at `a`, `a + 1`, and so on. -/
def Memory.cells (a : Nat) : List Byte → Memory
  | [] => []
  | b :: rest => (a, b) :: Memory.cells (a + 1) rest

/-- Put the bytes `bs` at `a`, `a + 1`, and so on: the cells below, the new cells, the cells above. -/
def Memory.writeBytes (m : Memory) (a : Nat) (bs : List Byte) : Memory :=
  m.filter (fun c => c.1 < a) ++ Memory.cells a bs ++ m.filter (fun c => a + bs.length ≤ c.1)

/-- The memory that holds `bs` from address 0 up and nothing else. -/
def Memory.ofBytes (bs : List Byte) : Memory := Memory.cells 0 bs

/-! ### Reading the two spaces -/

/-- One byte of `IN` (R40): none at or above `LEN`; below it, what the host wrote there, or the free value
of an address the host never wrote (93 entry U5, log entry 2). -/
def State.inByte (s : State) (a : Nat) : Option Byte :=
  if a < s.len then some ((s.inp.read a).getD (Config.inputPowerOn a)) else none

/-- One byte of `S` (R41, R51): none at or above `SL`, and none at an address to which nothing was ever
appended (DEDUCED, log entry 5: no run leaves such an address below `SL`). -/
def State.streamByte (s : State) (a : Nat) : Option Byte :=
  if a < s.sl then s.stream.read a else none

/-- `n` stream bytes from address `a` up, if they all exist: nothing is padded (R51). -/
def State.streamBytes (s : State) (a : Nat) : Nat → Option (List Byte)
  | 0 => some []
  | n + 1 =>
    match s.streamByte a with
    | none => none
    | some b => (State.streamBytes s (a + 1) n).map (b :: ·)

/-! ### Register updates -/

/-- `PH <- p`. -/
def State.setPhase (s : State) (p : Phase) : State := { s with ph := p }

/-- `Append(S, bs)` (00_scope.md section 7): `bs` at the end of `S`, `SL` grown by its length. -/
def State.appendStream (s : State) (bs : List Byte) : State :=
  { s with stream := s.stream.writeBytes s.sl bs, sl := s.sl + bs.length }

/-- `BC <- BC + 9` (R86, R88). -/
def State.advanceCursor (s : State) : State := { s with bc := s.bc + Config.codeW }

/-- `CB <- CB + 144 ; BC <- 0`: the effect END (R87) and EXHAUST (R89) share. -/
def State.nextChunk (s : State) : State := { s with cb := s.cb + Config.chunk, bc := 0 }

/-- `MemWrite(S, a, 1, b)`. -/
def State.storeStream (s : State) (a : Nat) (b : Byte) : State :=
  { s with stream := s.stream.write a b }

/-- `XI <- XI + 1` (R100). -/
def State.nextXorIndex (s : State) : State := { s with xi := s.xi + 1 }

/-- `RI <- RI + 32` (R112): every record costs one step and moves to the next window. -/
def State.nextRecord (s : State) : State := { s with ri := s.ri + Config.recordLen }

/-- `MODE <- some(m)` (R113). -/
def State.captureMode (s : State) (m : Byte) : State := { s with mode := some m }

/-- `ENTRY <- some(f)` (R114). -/
def State.captureEntry (s : State) (f : Fix) : State := { s with entry := some f }

/-- `EXIT <- some(f)` (R115). -/
def State.captureExit (s : State) (f : Fix) : State := { s with exit := some f }

/-- `RES <- r ; PH <- DONE` (R110, R130, R165): the same step writes both. -/
def State.finish (s : State) (r : Option Result) : State := { s with res := r, ph := .done }

/-- The state START leaves (R161): every block-owned register at its reset value but `PH`, which is DEC;
the host's `IN` and `LEN` as they are; the request is taken up. -/
def State.started (s : State) : State :=
  { State.reset with inp := s.inp, len := s.len, ph := .dec }

/-- The phases in which START has its effect (R161). -/
def State.hostMayAct (s : State) : Bool := s.ph = .idle || s.ph = .done

/-- The host may perform START, and write `IN` and `LEN`, only in these phases and with no START of its own
outstanding (R161, R164). Between the host's START and the step that takes it up the phase register still
reads IDLE or DONE, but R164 already forbids the host these actions there: what becomes of them is open (93
entry U6) and the model ignores them. DESIGN CHOICE, unsafe, log entry 4. -/
def State.hostFree (s : State) : Bool := s.hostMayAct && !s.startReq

end Sys2Proof.Machine
end

