-- ==== Sys2Proof/Machine/Flags.lean ====
section
/-! DEFINITION. The block has no arithmetic flags (R27). Its one-bit state is the five valid bits, here as
views of the option registers, and the decisions made inside a step. -/

namespace Sys2Proof.Machine

/-- `MODE_V` (R21). -/
def State.modeV (s : State) : Bool := s.mode.isSome

/-- `ENTRY_V` (R22). -/
def State.entryV (s : State) : Bool := s.entry.isSome

/-- `EXIT_V` (R23). -/
def State.exitV (s : State) : Bool := s.exit.isSome

/-- `RES_SOME` (R25). -/
def State.resSome (s : State) : Bool := s.res.isSome

/-- `RES_EXIT_V` (R25). -/
def State.resExitV (s : State) : Bool := (s.res.bind Result.exit).isSome

/-- `IsSentinel(lat, lon)` (R117): the pair is (0, 0) or (-1, -1), compared as signed integers. -/
def Fix.isSentinel (f : Fix) : Bool :=
  (f.lat.toInt = 0 && f.lon.toInt = 0) || (f.lat.toInt = -1 && f.lon.toInt = -1)

/-- The version gate (R113, R120): `ver >= 7` on the byte read unsigned. -/
def gateOpen (ver : Byte) : Bool := Config.verMin ≤ ver.toNat

/-- The policy of FINALIZE (R130, R132, R133): a result needs the captured mode to be 6 and an entry fix;
the exit fix is optional. -/
def policy (mode : Option Byte) (entry exit : Option Fix) : Option Result :=
  match mode, entry with
  | some m, some e => if m = Config.gpsMode then some ⟨e, exit⟩ else none
  | _, _ => none

end Sys2Proof.Machine
end

