-- ==== Sys2Proof/Machine/Operands.lean ====
section
/-! DEFINITION. Operand forms: the bit cursor's byte index and bit offset, the code at the cursor, the
record window at `RI`, and the two operands of XORB. -/

namespace Sys2Proof.Machine

/-- `CL` (R13, R81): the length of the chunk at `CB`. -/
def State.chunkLen (s : State) : Nat := min Config.chunk (s.len - s.cb)

/-- `BI` (R14): the byte index of the cursor. -/
def State.byteIndex (s : State) : Nat := s.bc / 8

/-- `BO` (R14): the bit-within-byte offset of the cursor. -/
def State.bitOffset (s : State) : Nat := s.bc % 8

/-- FETCH (R85): the code at the cursor, from `IN[CB+BI]` and `IN[CB+BI+1]`, if both bytes exist (R51). -/
def State.fetchCode (s : State) : Option Code :=
  match s.inByte (s.cb + s.byteIndex), s.inByte (s.cb + s.byteIndex + 1) with
  | some b0, some b1 => some (codeWindow b0 b1 s.bitOffset)
  | _, _ => none

/-- The record window `S[RI .. RI+31]`, if all its bytes exist (R51, R68, R111). -/
def State.fetchRecord (s : State) : Option (List Byte) := s.streamBytes s.ri Config.recordLen

/-- The two operands of XORB (R100), `S[XI]` and `S[XI - 32]`, if both exist: `32 <= XI < SL` (R51). -/
def State.xorOperands (s : State) : Option (Byte × Byte) :=
  if s.xi < Config.xwin then none
  else
    match s.streamByte s.xi, s.streamByte (s.xi - Config.xwin) with
    | some a, some b => some (a, b)
    | _, _ => none

end Sys2Proof.Machine
end

