-- ==== Sys2Proof/Machine/BlockDecoder.lean ====
section
/-! DEFINITION. Unit 1, the bit-packed block decoder: END, ZRUN, LIT (spec 40_block_decoder.md). The phase
is not tested here: `nextAction` (Fetch.lean) performs these in phase DEC only (log entry 12). -/

namespace Sys2Proof.Machine

/-- END (R87): on to bit 0 of the next chunk; nothing appended. -/
def execEndBlock (s : State) : Out := .next s.nextChunk

/-- ZRUN n (R88): `n` zero bytes appended, the cursor advanced. -/
def execZrun (n : Byte) (s : State) : Out :=
  .next (s.appendStream (List.replicate n.toNat 0)).advanceCursor

/-- LIT b (R86): one byte appended, the cursor advanced. -/
def execLit (b : Byte) (s : State) : Out := .next (s.appendStream [b]).advanceCursor

end Sys2Proof.Machine
end

