-- ==== Sys2Proof/Machine/Control.lean ====
section
/-! DEFINITION. START (spec 70_reset_and_hazards.md R161). -/

namespace Sys2Proof.Machine

/-- START (R161): at IDLE or DONE, every block-owned register to its start value and `PH <- DEC`. In a
running phase the spec defines no START and lets a model ignore it, leaving the run unchanged (93 entry
U6): that is taken. DESIGN CHOICE, unsafe, log entry 4. -/
def execStart (s : State) : Out := .next (if s.hostMayAct then s.started else s)

end Sys2Proof.Machine
end

