-- ==== Sys2Proof/Machine/Finalize.lean ====
section
/-! DEFINITION. The policy step: FINALIZE (spec 43_finalize.md). -/

namespace Sys2Proof.Machine

/-- FINALIZE (R130): `RES` from the captures, `PH <- DONE`. -/
def execFinalize (s : State) : Out := .next (s.finish (policy s.mode s.entry s.exit))

end Sys2Proof.Machine
end

