-- ==== Sys2Proof/Machine/RecordScanner.lean ====
section
/-! DEFINITION. Unit 3, the record scanner: OPEN4, OPEN9, CLOSE9, SKIP (spec 42_record_scanner.md). Each
meaning holds its rule's capture and the `RI <- RI + 32` with which R112 ends every record's step
(log entry 12). -/

namespace Sys2Proof.Machine

/-- OPEN4 (R113): the mode is captured when the version gate is open, whatever its value. -/
def execOpen4 (ver mode : Byte) (s : State) : Out :=
  .next (if gateOpen ver then s.captureMode mode else s).nextRecord

/-- OPEN9 (R114): the entry fix is captured unless the pair is a sentinel. -/
def execOpen9 (lat lon : Raw) (s : State) : Out :=
  .next (if Fix.isSentinel ⟨lat, lon⟩ then s else s.captureEntry ⟨lat, lon⟩).nextRecord

/-- CLOSE9 (R115): the exit fix is captured unless the pair is a sentinel. -/
def execClose9 (lat lon : Raw) (s : State) : Out :=
  .next (if Fix.isSentinel ⟨lat, lon⟩ then s else s.captureExit ⟨lat, lon⟩).nextRecord

/-- SKIP (R116): no effect but the move to the next window (R112). -/
def execSkip (_ty : Byte) (s : State) : Out := .next s.nextRecord

end Sys2Proof.Machine
end

