-- ==== Sys2Proof/Machine/XorUnit.lean ====
section
/-! DEFINITION. Unit 2, the rolling XOR decompressor: XORB (spec 41_xor_decompressor.md). -/

namespace Sys2Proof.Machine

/-- XORB (R100): `S[XI] <- S[XI] ^ S[XI-32] ; XI <- XI + 1`, both operands read from the memory the
rewrites go to (R53, R102). Where an operand does not exist no access is made, and the step is replaced by the
one that ends the phase, `PH <- SCAN` (R51, R107). -/
def execXorb (s : State) : Out :=
  match s.xorOperands with
  | some (a, b) => .next (s.storeStream s.xi (a ^^^ b)).nextXorIndex
  | none => .next (s.setPhase .scan)

end Sys2Proof.Machine
end

