-- ==== Sys2Proof/Machine/Dispatch.lean ====
section
/-! DEFINITION. The meaning of every instruction, by its constructor. -/

namespace Sys2Proof.Machine
open Sys2Proof

def exec (i : Instr) (s : State) : Host.Outcome State Fault Refusal :=
  match i with
  | .endBlock => Sys2Proof.Machine.execEndBlock s
  | .zrun n => Sys2Proof.Machine.execZrun n s
  | .lit b => Sys2Proof.Machine.execLit b s
  | .open4 ver mode => Sys2Proof.Machine.execOpen4 ver mode s
  | .open9 lat lon => Sys2Proof.Machine.execOpen9 lat lon s
  | .close9 lat lon => Sys2Proof.Machine.execClose9 lat lon s
  | .skip ty => Sys2Proof.Machine.execSkip ty s
  | .xorb => Sys2Proof.Machine.execXorb s
  | .start => Sys2Proof.Machine.execStart s
  | .finalize => Sys2Proof.Machine.execFinalize s

end Sys2Proof.Machine
end

