-- ==== Sys2Proof/Machine/Fetch.lean ====
section
/-! DEFINITION. What the agent does next: the step rules of the phases (R80, R100, R107, R110, R112, R152),
choosing an instruction or a move of the phase machine; and placing a table word where it is fetched. -/

namespace Sys2Proof.Machine

/-- The steps that are no row of the opcode table. -/
inductive Move
  /-- EXHAUST (R89): the chunk has no whole code left. -/
  | exhaust
  /-- `PH <- XOR` (R80): no chunk left. -/
  | leaveDec
  /-- `PH <- SCAN` (R107): no byte left to rewrite. -/
  | leaveXor
  /-- The length gate (R110): `RES <- none ; PH <- DONE`. -/
  | lengthGate
  /-- IDLE and DONE wait for the host's START (R152, R165). -/
  | wait
  deriving DecidableEq, Repr

/-- The effect of a move. -/
def Move.apply (m : Move) (s : State) : State :=
  match m with
  | .exhaust => s.nextChunk
  | .leaveDec => s.setPhase .xor
  | .leaveXor => s.setPhase .scan
  | .lengthGate => s.finish none
  | .wait => s

/-- What one step does. -/
inductive Action
  /-- Perform an instruction. -/
  | perform (i : Instr)
  /-- Make a move of the phase machine. -/
  | move (m : Move)
  deriving DecidableEq, Repr

/-- The DEC step (R80, R83). The guard comes before the fetch (R171), so the fetch always answers
(`State.fetchCode_of_guard`); a window with a byte missing would end the chunk (R51). -/
def State.decAction (s : State) : Action :=
  if s.len ≤ s.cb then .move .leaveDec
  else if 8 * s.chunkLen < s.bc + Config.codeW then .move .exhaust
  else
    match s.fetchCode with
    | some c => .perform (decodeCode c)
    | none => .move .exhaust

/-- The XOR step (R100, R107). -/
def State.xorAction (s : State) : Action :=
  if s.xi < s.sl then .perform .xorb else .move .leaveXor

/-- The SCAN step (R110, R111, R112). A window with a byte missing is not read and the step that ends the
phase, FINALIZE, takes its place (R51). -/
def State.scanAction (s : State) : Action :=
  if s.sl < Config.minLen then .move .lengthGate
  else if s.ri + 31 < s.sl then
    match s.fetchRecord with
    | some w => .perform (decodeRecord w)
    | none => .perform .finalize
  else .perform .finalize

/-- IDLE and DONE: take up the host's START if there is one, else wait (R152, R161, R165). -/
def State.hostAction (s : State) : Action :=
  if s.startReq then .perform .start else .move .wait

/-- What the next step does, by phase (R11). -/
def State.nextAction (s : State) : Action :=
  match s.ph with
  | .idle => s.hostAction
  | .dec => s.decAction
  | .xor => s.xorAction
  | .scan => s.scanAction
  | .done => s.hostAction

/-- Place a packed code as the first code of chunk 0, in phase DEC: the two bytes it spans, a `LEN` that
has them, the cursor at bit 0 (R162). -/
def State.placeCode (s : State) (c : Code) : State :=
  { s with ph := .dec, cb := 0, bc := 0, inp := s.inp.writeBytes 0 (codeAtStart c), len := max s.len 2 }

/-- Place a record as record 0, in phase SCAN: its 32 bytes, and 32 zero bytes after it so that the length
gate (R110) lets the scan run. -/
def State.placeRecord (s : State) (w : List Byte) : State :=
  { s with
    ph := .scan, ri := 0,
    stream := Memory.ofBytes (w ++ List.replicate (Config.minLen - w.length) 0),
    sl := max Config.minLen w.length }

end Sys2Proof.Machine
end

