-- ==== Sys2Proof/Machine/Step.lean ====
section
/-! DEFINITION. One step of the machine, and placing a table word where the next step fetches. -/

namespace Sys2Proof.Machine

/-- One step (R8): what `nextAction` chooses, performed. -/
def step (s : State) : Host.Outcome State Fault Refusal :=
  match s.nextAction with
  | .perform i => exec i s
  | .move m => .next (m.apply s)

/-- `s` with the table word `w` of a row of `nbits` bits placed so that the very next step performs it:
codes in phase DEC, records in phase SCAN (log entry 11). -/
def State.withFetchWord (s : State) (nbits w : Nat) : State :=
  if isCodeWord nbits then s.placeCode (BitVec.ofNat 9 w) else s.placeRecord (recordOfWord w)

end Sys2Proof.Machine
end

