-- ==== Sys2Proof/Machine/HostPort.lean ====
section
/-! DEFINITION. The host's side (R31, R57, R164, R165): what it may do between steps, and what it may see.
These are actions of the host, not steps of the block. From its START to DONE the spec gives the host no
such action and lets a model ignore it (R164, 93 entry U6): it changes nothing, in phases DEC, XOR and SCAN
and also at IDLE and DONE while a START is outstanding (`State.hostFree`). DESIGN CHOICE, unsafe, log entry 4. -/

namespace Sys2Proof.Machine

/-- The host writes one byte of `IN` (R40, R164). -/
def State.hostWriteInput (s : State) (a : Nat) (b : Byte) : State :=
  if s.hostFree then { s with inp := s.inp.write a b } else s

/-- The host writes `LEN` (R164). -/
def State.hostWriteLen (s : State) (n : Nat) : State :=
  if s.hostFree then { s with len := n } else s

/-- The host loads a whole input: its bytes at addresses 0 up, and `LEN` (R164). -/
def State.hostLoad (s : State) (bs : List Byte) : State :=
  if s.hostFree then { s with inp := s.inp.writeBytes 0 bs, len := bs.length } else s

/-- The host performs START (R161): the next step takes it up. -/
def State.hostStart (s : State) : State :=
  if s.hostFree then { s with startReq := true } else s

/-- What the host can observe (R31): `PH` always; at DONE also `RES`, `SL` and `S`. -/
structure HostView where
  ph : Phase
  atDone : Option (Option Result × Nat × Memory)
  deriving DecidableEq, Repr

/-- The host's view of a state (R31, R57). Reading changes nothing (R49). Between its START and the next DONE
the host must not read `RES`, `SL` or `S` (R164); what it would see is open (93 entry U6) and the model shows
nothing, also at DONE while a START is outstanding. DESIGN CHOICE, unsafe, log entry 4. -/
def State.hostView (s : State) : HostView where
  ph := s.ph
  atDone := if s.ph = .done ∧ s.startReq = false then some (s.res, s.sl, s.stream) else none

end Sys2Proof.Machine
end

