-- ==== Sys2Proof/Machine/Reference.lean ====
section
/-! DEFINITION. The whole-function views of the spec, written from its pseudocode over plain byte lists and
numbers, without the machine: BlockDecode (R93), XorDec (R105), FwdDiff (R106), Extract (R137), Top (R9).
The step machine computes them (R138); statements say so. -/

namespace Sys2Proof.Machine

/-- `s32(u)` (00_scope.md section 6): the two's-complement reading of a 32-bit number. -/
def s32 (u : Nat) : Int := if u < 2 ^ 31 then u else (u : Int) - 2 ^ 32

/-- The 9-bit number at cursor `bc` of `blk` (R93): `(v >> (7 - bo)) & 0x1FF`. -/
def refCode (blk : List Byte) (bc : Nat) : Nat :=
  let v := (blk.getD (bc / 8) 0).toNat * 256 + (blk.getD (bc / 8 + 1) 0).toNat
  (v >>> (7 - bc % 8)) % 512

/-- The loop of BlockDecode (R93) from cursor `bc`, at most `fuel` codes. -/
def blockDecodeFrom (blk : List Byte) (bc : Nat) : Nat → List Byte
  | 0 => []
  | fuel + 1 =>
    if bc + 9 ≤ 8 * blk.length then
      let code := refCode blk bc
      if 256 ≤ code then BitVec.ofNat 8 code :: blockDecodeFrom blk (bc + 9) fuel
      else if code = 0 then []
      else List.replicate code 0 ++ blockDecodeFrom blk (bc + 9) fuel
    else []

/-- BlockDecode (R93). A chunk of `n` bytes holds at most `n` codes, so the loop never runs out of fuel. -/
def blockDecode (blk : List Byte) : List Byte := blockDecodeFrom blk 0 blk.length

/-- The number of chunks, `ceil(LEN / 144)` (R43). -/
def chunkCount (n : Nat) : Nat := (n + 143) / 144

/-- Chunk `k` (R43). -/
def chunkOf (inp : List Byte) (k : Nat) : List Byte := (inp.drop (144 * k)).take 144

/-- `Pre(IN, LEN)` (R93): the chunks' outputs concatenated in chunk order (R90). -/
def preStream (inp : List Byte) : List Byte :=
  (List.range (chunkCount inp.length)).flatMap fun k => blockDecode (chunkOf inp k)

/-- XorDec (R105): `D[i] = D[i] ^ D[i - 32]` for `i` from 32 up, in place. -/
def xorDec (p : List Byte) : List Byte :=
  (List.range' 32 (p.length - 32)).foldl (fun d i => d.set i (d.getD i 0 ^^^ d.getD (i - 32) 0)) p

/-- FwdDiff (R106): both operands from the unmodified sequence. Not part of the block; it states the
round-trip law only (R3). -/
def fwdDiff (d : List Byte) : List Byte :=
  (List.range d.length).map fun i => if i < 32 then d.getD i 0 else d.getD i 0 ^^^ d.getD (i - 32) 0

/-- The captures of a scan (R137). -/
structure Captures where
  mode : Option Byte
  entry : Option (Int × Int)
  exit : Option (Int × Int)
  deriving DecidableEq, Repr

/-- The signed field at index `i` of the stream (R137). -/
def refField (d : List Byte) (i : Nat) : Int :=
  s32 ((d.getD i 0).toNat * 2 ^ 24 + (d.getD (i + 1) 0).toNat * 2 ^ 16 +
    (d.getD (i + 2) 0).toNat * 2 ^ 8 + (d.getD (i + 3) 0).toNat)

/-- The pair of a fix record, unless it is a sentinel pair (R117, R137). -/
def refFix (d : List Byte) (idx : Nat) : Option (Int × Int) :=
  let p := (refField d (idx + 21), refField d (idx + 25))
  if p = (0, 0) ∨ p = (-1, -1) then none else some p

/-- One turn of Extract's loop (R137): the record at `idx`. -/
def scanWindow (d : List Byte) (c : Captures) (idx : Nat) : Captures :=
  if (d.getD idx 0).toNat = 0x14 then
    if 7 ≤ (d.getD (idx + 16) 0).toNat then { c with mode := some (d.getD (idx + 28) 0) } else c
  else if (d.getD idx 0).toNat = 0x19 then { c with entry := (refFix d idx).or c.entry }
  else if (d.getD idx 0).toNat = 0x29 then { c with exit := (refFix d idx).or c.exit }
  else c

/-- The captures after the first `n` records (R111, R137). -/
def scanRecords (d : List Byte) (n : Nat) : Captures :=
  (List.range n).foldl (fun c j => scanWindow d c (32 * j)) ⟨none, none, none⟩

/-- Extract (R137): the entry pair and the exit pair if there is one, as signed integers. -/
def extract (d : List Byte) : Option ((Int × Int) × Option (Int × Int)) :=
  if d.length < 64 then none
  else
    let c := scanRecords d (d.length / 32)
    if c.mode = some 6 then c.entry.map fun e => (e, c.exit) else none

/-- Top (R9): the whole block as a function of its input. -/
def top (inp : List Byte) : Option ((Int × Int) × Option (Int × Int)) :=
  extract (xorDec (preStream inp))

/-- A fix as its two signed integers (R22). -/
def Fix.ints (f : Fix) : Int × Int := (f.lat.toInt, f.lon.toInt)

/-- A result register as signed integers (R26). -/
def resultInts (r : Option Result) : Option ((Int × Int) × Option (Int × Int)) :=
  r.map fun x => (x.entry.ints, x.exit.map Fix.ints)

/-- The input the block sees: `IN[0 .. LEN-1]`, what the host wrote or, where it wrote nothing, the free
values (log entry 2). -/
def State.inputBytes (s : State) : List Byte :=
  (List.range s.len).map fun a => (s.inp.read a).getD (Config.inputPowerOn a)

end Sys2Proof.Machine
end

