-- ==== Sys2Proof/Machine/Render.lean ====
section
/-! DEFINITION. What a raw coordinate stands for: exact degrees (R134) and their IEEE 754 binary64 rendering
(R135). Functions the host or a model applies to the registers; the machine's state holds integers (R26).
The bit layout of binary64 is not in the spec: PRESUMED, unsafe for the rendering only, log entry 10. -/

namespace Sys2Proof.Machine

/-- The angle of a raw coordinate in decimal degrees, exactly (R134). -/
def degrees (raw : Raw) : Rat := (raw.toInt : Rat) / (Config.scale : Rat)

/-- Round `n / d` to the nearest integer, ties to even. -/
def roundNearestEven (n d : Nat) : Nat :=
  let q := n / d
  let r := n % d
  if 2 * r < d then q
  else if d < 2 * r then q + 1
  else q + q % 2

/-- The power of two below the quotient `m / 100000`, plus 80: `2^80 / 100000` exceeds `2^63`, so the
scaled quotient is at least 1 for every positive `m`. -/
def quotientLog (m : Nat) : Nat := Nat.log2 (m * 2 ^ 80 / Config.scale)

/-- The 53-bit significand of `m / 100000` for `0 < m ≤ 2^31` (R135): the quotient scaled into
`2^52 .. 2^53` and rounded once. -/
def significand (m : Nat) : Nat := roundNearestEven (m * 2 ^ (132 - quotientLog m)) Config.scale

/-- The bits of binary64 of `m / 100000` for `m ≤ 2^31`: biased exponent, then the significand without its
leading one; a significand that rounded up to `2^53` carries into the exponent. Zero is `+0.0`. -/
def binary64Magnitude (m : Nat) : Nat :=
  if m = 0 then 0 else (quotientLog m + 943) * 2 ^ 52 + (significand m - 2 ^ 52)

/-- The binary64 number nearest to `raw / 100000`, ties to even (R135), as its 64 bits, sign first. -/
def binary64 (raw : Raw) : BitVec 64 :=
  BitVec.ofNat 64 ((if raw.toInt < 0 then 2 ^ 63 else 0) + binary64Magnitude raw.toInt.natAbs)

end Sys2Proof.Machine
end

