-- ==== Sys2Proof/Safety.lean ====
section
/-! DEFINITION. What a good state is, and the terms the statements use. -/

namespace Sys2Proof.Machine

/-- A run is under way (R57): the phases in which the host may not act. -/
abbrev Phase.running (p : Phase) : Prop := p = .dec ∨ p = .xor ∨ p = .scan

/-- Unit 3 has not begun, so nothing is captured (R21 to R23, R163). -/
abbrev Phase.beforeScan (p : Phase) : Prop := p = .idle ∨ p = .dec ∨ p = .xor

/-- The invariant of the machine: it holds at reset, every step keeps it, and every action of the host
keeps it. Each field cites the rule that gives it. -/
structure Inv (s : State) : Prop where
  /-- `IN` keeps the canonical form. -/
  inpWf : s.inp.wf
  /-- `S` holds exactly the addresses 0 to `SL - 1` (R17, R18, R41). -/
  streamFull : s.stream.map Prod.fst = List.range s.sl
  /-- `CB` is a multiple of 144 (R12). -/
  cbGrid : s.cb % 144 = 0
  /-- `BC` is a multiple of 9 (R14). -/
  bcGrid : s.bc % 9 = 0
  /-- `BC` is at most 1152 (R14). -/
  bcMax : s.bc ≤ 1152
  /-- `XI` starts at 32 and grows (R19). -/
  xiMin : 32 ≤ s.xi
  /-- `XI` reaches at most `max(32, SL)` (R19). -/
  xiMax : s.xi ≤ max 32 s.sl
  /-- `RI` is a multiple of 32 (R20). -/
  riGrid : s.ri % 32 = 0
  /-- `RI` does not pass the end of `S` (R111). -/
  riMax : s.ri ≤ s.sl
  /-- A START request waits only where the host may act (R161, log entry 3). -/
  reqIdle : s.startReq = true → s.hostMayAct = true
  /-- At IDLE the block holds its reset values (R160). -/
  idleFresh : s.ph = .idle → s.cb = 0 ∧ s.bc = 0 ∧ s.sl = 0
  /-- Unit 2's index is untouched until phase XOR (R160, R161). -/
  xiFresh : s.ph = .idle ∨ s.ph = .dec → s.xi = 32
  /-- Unit 3's state is untouched until phase SCAN (R160, R161, R163). -/
  scanFresh : s.ph.beforeScan → s.ri = 0 ∧ s.mode = none ∧ s.entry = none ∧ s.exit = none
  /-- Unit 2 has rewritten every byte when unit 3 runs (R54, R56, R107). -/
  xorComplete : s.ph = .scan ∨ s.ph = .done → s.sl ≤ s.xi
  /-- The cursor lies inside the current chunk (R14, R81); with no chunk left it is 0. -/
  cursorInside : s.ph.running → s.bc ≤ 8 * s.chunkLen
  /-- `CB` passes the end of the input by less than a chunk (R87 corner case c). -/
  cbMax : s.ph.running → s.cb < s.len + 144
  /-- Every code appends at most 255 bytes (R92). -/
  slMax : s.sl ≤ 255 * (128 * (s.cb / 144) + s.bc / 9)
  /-- A captured entry fix is no sentinel (R22). -/
  entryFix : ∀ f, s.entry = some f → f.isSentinel = false
  /-- A captured exit fix is no sentinel (R23). -/
  exitFix : ∀ f, s.exit = some f → f.isSentinel = false
  /-- `RES` is none until the step that ends the run (R25). -/
  resFresh : s.ph ≠ .done → s.res = none
  /-- A result reports the captures, and only under the policy (R130 to R133). -/
  resShape : ∀ r, s.res = some r → s.mode = some 6 ∧ s.entry = some r.entry ∧ s.exit = r.exit

/-- How many steps a run of the input `inp` takes at most: the step that takes up the host's START (the model's
own, log entry 3), and R138's count: per chunk at most 129 DEC steps and one to leave the phase, then one XOR
step per byte from 32 up and one to leave, then one SCAN step per record and one to finalize. -/
def runBound (inp : List Byte) : Nat :=
  1 + (129 * chunkCount inp.length + 1) + ((preStream inp).length - 32 + 1) +
    ((preStream inp).length / 32 + 1)

end Sys2Proof.Machine
end

