-- ==== Sys2Proof/Certificates/Slice0/Obligations.lean ====
section
/-! DEFINITION. The statements for the provers. Nothing is proved here. -/

open Sys2Proof Sys2Proof.Machine

/-! ### Encodings -/

/-- R64, R69 to R71, R74: every well-formed instruction that has an encoding is decoded back from it, and
exactly the rows of format OP have none. -/
def Obligations.EncodeThenDecodeGivesInstruction : Prop :=
  ∀ i : Instr, WellFormed i →
    (∀ e, encode i = some e → decode e = .ok i) ∧ (encode i = none ↔ i.format = .op)

/-- R62, R63, R76: code `k` of packed codes is what a fetch at cursor `9k` reads, and its two bytes exist. -/
def Obligations.PackedCodesAreFetchedBack : Prop :=
  ∀ (cs : List Code) (k : Nat), k < cs.length →
    9 * k / 8 + 1 < (packCodes cs).length ∧
      codeWindow ((packCodes cs).getD (9 * k / 8) 0) ((packCodes cs).getD (9 * k / 8 + 1) 0) (9 * k % 8) =
        cs.getD k 0

/-- R64: the three classes of packed codes, by value, with the operand of each. -/
def Obligations.EveryCodeHasItsClass : Prop :=
  ∀ c : Code,
    (c.toNat = 0 → decodeCode c = .endBlock) ∧
    (1 ≤ c.toNat → c.toNat ≤ 255 → decodeCode c = .zrun (BitVec.ofNat 8 c.toNat)) ∧
    (256 ≤ c.toNat → decodeCode c = .lit (BitVec.ofNat 8 c.toNat)) ∧
    WellFormed (decodeCode c) ∧ encode (decodeCode c) = some (.code c)

/-- R69, R72, R118: a whole window is classified by its type byte alone, with the bytes and the big-endian
signed fields of R70 and R71 as operands. -/
def Obligations.RecordClassAndFields : Prop :=
  ∀ w : List Byte, w.length = 32 →
    (w.getD 0 0 = 0x14 → decode (.record w) = .ok (.open4 (w.getD 16 0) (w.getD 28 0))) ∧
    (w.getD 0 0 = 0x19 → ∃ lat lon, decode (.record w) = .ok (.open9 lat lon) ∧
      lat.toInt = refField w 21 ∧ lon.toInt = refField w 25) ∧
    (w.getD 0 0 = 0x29 → ∃ lat lon, decode (.record w) = .ok (.close9 lat lon) ∧
      lat.toInt = refField w 21 ∧ lon.toInt = refField w 25) ∧
    (w.getD 0 0 ≠ 0x14 → w.getD 0 0 ≠ 0x19 → w.getD 0 0 ≠ 0x29 →
      decode (.record w) = .ok (.skip (w.getD 0 0)))

/-- R70, R71, R73 (93 entry U3): the record bytes marked as not read change nothing. -/
def Obligations.UnreadRecordBytesDoNotMatter : Prop :=
  ∀ w v : List Byte, w.length = 32 → v.length = 32 → w.getD 0 0 = v.getD 0 0 →
    (w.getD 0 0 = 0x14 → w.getD 16 0 = v.getD 16 0 ∧ w.getD 28 0 = v.getD 28 0) →
    (w.getD 0 0 = 0x19 ∨ w.getD 0 0 = 0x29 → ∀ o, 21 ≤ o → o ≤ 28 → w.getD o 0 = v.getD o 0) →
    decode (.record w) = decode (.record v)

/-- R64, R72, R86 to R88: words written out from the spec's encodings. -/
def Obligations.KnownWordsDecode : Prop :=
  decodeCode 0b000000000 = .endBlock ∧ decodeCode 0b000000101 = .zrun 5 ∧
    decodeCode 0b100000001 = .lit 1 ∧ decodeCode 0b100000000 = .lit 0 ∧
    decodeCodeBytes [0x81, 0x7F] 1 = .ok (.zrun 5) ∧
    rawOfBytes 0x00 0x3D 0x74 0x6C = BitVec.ofInt 32 4027500 ∧
    rawOfBytes 0xFF 0x8E 0xE5 0x87 = BitVec.ofInt 32 (-7412345)

/-- A table word placed where the next step fetches is what that step performs (log entry 11). -/
def Obligations.PlacedWordIsPerformed : Prop :=
  ∀ (s : State) (nbits w : Nat), ∃ i, decodeTableWord nbits w = some i ∧
    step (s.withFetchWord nbits w) = exec i (s.withFetchWord nbits w)

/-! ### A step performs the decoded instruction -/

/-- R63, R80, R83, R85: a DEC step with a whole code left performs the code that the two bytes at the cursor
spell. -/
def Obligations.StepPerformsDecodedCode : Prop :=
  ∀ (s : State) (b0 b1 : Byte), s.ph = .dec → s.cb < s.len → s.bc + 9 ≤ 8 * min 144 (s.len - s.cb) →
    s.inp.read (s.cb + s.bc / 8) = some b0 → s.inp.read (s.cb + s.bc / 8 + 1) = some b1 →
    ∃ c : Code, c.toNat = ((b0.toNat * 256 + b1.toNat) >>> (7 - s.bc % 8)) % 512 ∧
      step s = exec (decodeCode c) s

/-- R111, R112: a SCAN step with a full window performs the record the window's 32 bytes spell. -/
def Obligations.StepPerformsDecodedRecord : Prop :=
  ∀ (s : State) (w : List Byte), s.ph = .scan → 64 ≤ s.sl → s.ri + 31 < s.sl → w.length = 32 →
    (∀ o, o < 32 → s.stream.read (s.ri + o) = some (w.getD o 0)) →
    ∃ i, decode (.record w) = .ok i ∧ step s = exec i s

/-- R100, R112, R130, R161: when the phase machine performs the operations that have no encoding. R51 puts the
step that ends the phase where a byte of the window is outside the stream; that an address below `SL` to which
nothing was appended is outside is the model's reading (log entry 5). -/
def Obligations.StepPerformsPhaseOperations : Prop :=
  ∀ s : State,
    (s.ph = .xor → s.xi < s.sl → step s = exec .xorb s) ∧
    (s.ph = .scan → 64 ≤ s.sl → (s.sl ≤ s.ri + 31 ∨ ∃ o, o < 32 ∧ s.stream.read (s.ri + o) = none) →
      step s = exec .finalize s) ∧
    (s.ph = .idle ∨ s.ph = .done → s.startReq = true → step s = exec .start s)

/-- R89: a chunk with no whole code left is left for the next one. -/
def Obligations.ExhaustedChunkMovesOn : Prop :=
  ∀ s : State, s.ph = .dec → s.cb < s.len → 8 * min 144 (s.len - s.cb) < s.bc + 9 →
    step s = .next { s with cb := s.cb + 144, bc := 0 }

/-- R80, R107: leaving phases DEC and XOR changes the phase and nothing else. -/
def Obligations.PhaseExitsChangeOnlyThePhase : Prop :=
  ∀ s : State,
    (s.ph = .dec → s.len ≤ s.cb → step s = .next { s with ph := .xor }) ∧
    (s.ph = .xor → s.sl ≤ s.xi → step s = .next { s with ph := .scan })

/-- R110: a stream under 64 bytes ends the run with the result none, and no record is captured. -/
def Obligations.LengthGateEndsTheRun : Prop :=
  ∀ s : State, s.ph = .scan → s.sl < 64 → step s = .next { s with res := none, ph := .done }

/-- R152, R165: at IDLE and DONE, with no START of the host, a step changes nothing. That waiting is a step of
the model is the model's choice (log entry 3). -/
def Obligations.IdleAndDoneWait : Prop :=
  ∀ s : State, s.ph = .idle ∨ s.ph = .done → s.startReq = false → step s = .next s

/-! ### The instructions -/

/-- R86: a code of 256 or more is LIT of its low 8 bits; LIT appends that byte at the end of the stream and
advances the cursor; every other byte and every other register is as before; LIT of zero acts as ZRUN of
one. -/
def Obligations.LitAppendsItsByte : Prop :=
  (∀ c : Code, 256 ≤ c.toNat → decodeCode c = .lit (BitVec.ofNat 8 c.toNat)) ∧
  ∀ (b : Byte) (s : State),
    (∃ t, exec (.lit b) s = .next t ∧
      t = { s with stream := t.stream, sl := s.sl + 1, bc := s.bc + 9 } ∧
      t.stream.read s.sl = some b ∧
      ∀ a, a ≠ s.sl → t.stream.read a = s.stream.read a) ∧
    exec (.lit 0) s = exec (.zrun 1) s

/-- R87: the code 0 is END, which moves to bit 0 of the next chunk and changes nothing else, so nothing is appended. -/
def Obligations.EndMovesToTheNextChunk : Prop :=
  decodeCode 0 = .endBlock ∧
  ∀ s : State, exec .endBlock s = .next { s with cb := s.cb + 144, bc := 0 }

/-- R88: a code of 1 to 255 is ZRUN of that many; ZRUN appends as many zero bytes as its payload says, in one
step, and advances the cursor; every other byte and every other register is as before. -/
def Obligations.ZrunAppendsZeros : Prop :=
  (∀ c : Code, 1 ≤ c.toNat → c.toNat ≤ 255 →
    ∃ n : Byte, n.toNat = c.toNat ∧ decodeCode c = .zrun n) ∧
  ∀ (n : Byte) (s : State),
    ∃ t, exec (.zrun n) s = .next t ∧
      t = { s with stream := t.stream, sl := s.sl + n.toNat, bc := s.bc + 9 } ∧
      (∀ k, k < n.toNat → t.stream.read (s.sl + k) = some 0) ∧
      ∀ a, a < s.sl ∨ s.sl + n.toNat ≤ a → t.stream.read a = s.stream.read a

/-- R100: in phase XOR a step with `XI < SL` is XORB and one with `XI >= SL` leaves the phase; XORB rewrites the byte at `XI` with its XOR with the byte 32 before, read from the same memory,
and advances `XI`; every other byte and every other register is as before. -/
def Obligations.XorbRewritesItsByte : Prop :=
  (∀ s : State, s.ph = .xor →
    (s.xi < s.sl → step s = exec .xorb s) ∧ (s.sl ≤ s.xi → step s = .next { s with ph := .scan })) ∧
  ∀ (s : State) (a b : Byte), 32 ≤ s.xi → s.xi < s.sl →
    s.stream.read s.xi = some a → s.stream.read (s.xi - 32) = some b →
    ∃ t, exec .xorb s = .next t ∧
      t = { s with stream := t.stream, xi := s.xi + 1 } ∧
      t.stream.read s.xi = some (a ^^^ b) ∧
      ∀ c, c ≠ s.xi → t.stream.read c = s.stream.read c

/-- R51: XORB reads its operands only where `32 <= XI < SL`; an XORB that would read outside the stream makes no
access and ends the phase, and changes nothing else. That an address below `SL` to which nothing was appended is
outside the stream is the model's reading (log entry 5). -/
def Obligations.XorbNeverAccessesOutsideTheStream : Prop :=
  ∀ s : State,
    s.xi < 32 ∨ s.sl ≤ s.xi ∨ s.stream.read s.xi = none ∨ s.stream.read (s.xi - 32) = none →
      exec .xorb s = .next { s with ph := .scan }

/-- R113, R120: OPEN4 captures the mode byte exactly when the version is at least 7, unsigned; a closed gate
changes nothing captured. The record's move to the next window is R112's. -/
def Obligations.Open4CapturesTheMode : Prop :=
  ∀ (ver mode : Byte) (s : State),
    (7 ≤ ver.toNat → exec (.open4 ver mode) s = .next { s with mode := some mode, ri := s.ri + 32 }) ∧
    (ver.toNat < 7 → exec (.open4 ver mode) s = .next { s with ri := s.ri + 32 })

/-- R114, R117: OPEN9 captures the entry fix unless the pair is (0, 0) or (-1, -1); a sentinel leaves an earlier
fix as it was (R123). The move to the next window is R112's. -/
def Obligations.Open9CapturesTheEntryFix : Prop :=
  ∀ (lat lon : Raw) (s : State),
    ((lat.toInt, lon.toInt) ≠ (0, 0) → (lat.toInt, lon.toInt) ≠ (-1, -1) →
      exec (.open9 lat lon) s = .next { s with entry := some ⟨lat, lon⟩, ri := s.ri + 32 }) ∧
    ((lat.toInt, lon.toInt) = (0, 0) ∨ (lat.toInt, lon.toInt) = (-1, -1) →
      exec (.open9 lat lon) s = .next { s with ri := s.ri + 32 })

/-- R115, R117: CLOSE9 captures the exit fix unless the pair is (0, 0) or (-1, -1); a sentinel leaves an earlier
fix as it was (R123). The move to the next window is R112's. -/
def Obligations.Close9CapturesTheExitFix : Prop :=
  ∀ (lat lon : Raw) (s : State),
    ((lat.toInt, lon.toInt) ≠ (0, 0) → (lat.toInt, lon.toInt) ≠ (-1, -1) →
      exec (.close9 lat lon) s = .next { s with exit := some ⟨lat, lon⟩, ri := s.ri + 32 }) ∧
    ((lat.toInt, lon.toInt) = (0, 0) ∨ (lat.toInt, lon.toInt) = (-1, -1) →
      exec (.close9 lat lon) s = .next { s with ri := s.ri + 32 })

/-- R116, R112: SKIP moves to the next window and changes nothing else. -/
def Obligations.SkipOnlyMovesOn : Prop :=
  ∀ (ty : Byte) (s : State), exec (.skip ty) s = .next { s with ri := s.ri + 32 }

/-- R130: FINALIZE is the SCAN step taken when `SL >= 64` and no full window is left; it writes the result from
the captures and ends the run, and changes nothing else. -/
def Obligations.FinalizeAppliesThePolicy : Prop :=
  (∀ s : State, s.ph = .scan → 64 ≤ s.sl → s.sl ≤ s.ri + 31 → step s = exec .finalize s) ∧
  ∀ s : State,
    (∀ e, s.mode = some 6 → s.entry = some e →
      exec .finalize s = .next { s with res := some ⟨e, s.exit⟩, ph := .done }) ∧
    (s.mode ≠ some 6 ∨ s.entry = none →
      exec .finalize s = .next { s with res := none, ph := .done })

/-- R161: START at IDLE or DONE gives every block-owned register its start value and enters DEC; the input is as
the host left it. The request bit is the model's own (log entry 3). -/
def Obligations.StartBeginsAFreshRun : Prop :=
  ∀ s : State, s.ph = .idle ∨ s.ph = .done →
    exec .start s = .next { s with
      ph := .dec, cb := 0, bc := 0, stream := [], sl := 0, xi := 32, ri := 0, mode := none, entry := none,
      exit := none, res := none, startReq := false }

/-- 93 entry U6: a START in a running phase is ignored and the run left unchanged. The model's choice (log
entry 4). -/
def Obligations.StartDuringARunIsIgnored : Prop :=
  ∀ s : State, s.ph = .dec ∨ s.ph = .xor ∨ s.ph = .scan → exec .start s = .next s

/-- 93 entry U6, R164: the host's writes and its START are ignored in a running phase, and also at IDLE or DONE
while a START is outstanding. The model's choice (log entry 4). -/
def Obligations.HostActionsDuringARunAreIgnored : Prop :=
  ∀ (s : State) (a n : Nat) (b : Byte) (bs : List Byte),
    s.ph = .dec ∨ s.ph = .xor ∨ s.ph = .scan ∨ s.startReq = true →
      s.hostWriteInput a b = s ∧ s.hostWriteLen n = s ∧ s.hostLoad bs = s ∧ s.hostStart = s

/-! ### The machine as a whole -/

/-- R160: what reset leaves in every register whose value the spec states. -/
def Obligations.ResetLeavesTheStatedValues : Prop :=
  State.reset.ph = .idle ∧ State.reset.cb = 0 ∧ State.reset.bc = 0 ∧ State.reset.stream = [] ∧
    State.reset.sl = 0 ∧ State.reset.xi = 32 ∧ State.reset.ri = 0 ∧ State.reset.modeV = false ∧
    State.reset.entryV = false ∧ State.reset.exitV = false ∧ State.reset.resSome = false ∧
    State.reset.resExitV = false

/-- The invariant of Safety.lean holds at reset. -/
def Obligations.InvHoldsAtReset : Prop := Inv State.reset

/-- Every step keeps the invariant: the spaces keep their canonical form, the cursors stay on their grids and
inside their spaces, nothing is captured before phase SCAN, no sentinel is ever captured, the result is none
until the run ends and then reports the captures under the policy. -/
def Obligations.InvKeptByEveryStep : Prop :=
  ∀ s t : State, Inv s → step s = .next t → Inv t

/-- Every action of the host keeps the invariant. At IDLE and DONE with no START outstanding these are the actions
R164 gives the host; elsewhere R57 and R164 forbid them, 93 entry U6 leaves them open, and the statement holds
there because the model ignores them: the model's choice (log entry 4). That START sets a request bit is the
model's choice too (log entry 3). -/
def Obligations.InvKeptByTheHost : Prop :=
  ∀ (s : State) (a n : Nat) (b : Byte) (bs : List Byte), Inv s →
    Inv (s.hostWriteInput a b) ∧ Inv (s.hostWriteLen n) ∧ Inv (s.hostLoad bs) ∧ Inv s.hostStart

/-- R140, R143, R151: no step faults and none refuses, in any state whatever; nor does any instruction. R140 says
so of phases DEC, XOR and SCAN. The rest is the model's choice or reading: that a step at IDLE or DONE with no
START waits (log entry 3; R152 gives the block no step there), that START in a running phase is ignored (log
entry 4; 93 entry U6 leaves it undefined), that an address below `SL` to which nothing was appended is outside the
stream, where R51 ends the phase (log entry 5), and that a meaning does not test the phase (log entry 12). -/
def Obligations.EveryStepAnswersANextState : Prop :=
  ∀ s : State, (∃ t, step s = .next t) ∧ ∀ i : Instr, ∃ t, exec i s = .next t

/-- R11: the only transitions of the phase register, and the host can read it. -/
def Obligations.PhaseTransitionsAreTheSpecs : Prop :=
  ∀ s t : State, step s = .next t →
    (t.ph = s.ph ∨ (s.ph = .idle ∧ t.ph = .dec) ∨ (s.ph = .done ∧ t.ph = .dec) ∨
      (s.ph = .dec ∧ t.ph = .xor) ∨ (s.ph = .xor ∧ t.ph = .scan) ∨ (s.ph = .scan ∧ t.ph = .done)) ∧
    s.hostView.ph = s.ph

/-- R10, R40: no step writes `IN` or `LEN`. -/
def Obligations.StepsNeverWriteTheInput : Prop :=
  ∀ s t : State, step s = .next t → t.inp = s.inp ∧ t.len = s.len

/-- R25, R165: a run ends only by the length gate or by FINALIZE, the same step writes `RES`, and no other step
but START changes it. FINALIZE comes where no full window is left (R112), or, in a state no run reaches, where a
byte of the window does not exist (R51, log entry 5). -/
def Obligations.ResultWrittenOnlyAtTheEnd : Prop :=
  ∀ s t : State, step s = .next t →
    (t.ph = .done → s.ph = .done ∨ (s.ph = .scan ∧ (s.sl < 64 ∨ s.sl ≤ s.ri + 31 ∨
      ∃ o, o < 32 ∧ s.stream.read (s.ri + o) = none))) ∧
    (t.res ≠ s.res → (s.ph = .scan ∧ t.ph = .done) ∨
      ((s.ph = .idle ∨ s.ph = .done) ∧ t.ph = .dec ∧ t.res = none))

/-- R21: during a run the captured mode changes only by an OPEN4 record at `RI` with a version byte of at least
7, and then to the record's byte at offset 28. -/
def Obligations.ModeChangesOnlyByAQualifyingRecord : Prop :=
  ∀ s t : State, step s = .next t → s.ph = .dec ∨ s.ph = .xor ∨ s.ph = .scan → t.mode ≠ s.mode →
    s.ph = .scan ∧ s.stream.read s.ri = some 0x14 ∧
      (∃ v : Byte, s.stream.read (s.ri + 16) = some v ∧ 7 ≤ v.toNat) ∧
      ∃ m : Byte, s.stream.read (s.ri + 28) = some m ∧ t.mode = some m

/-- R22, R23, R24, R114, R115: during a run a fix register changes only in phase SCAN, by a record of its own type
at `RI`, to that record's own pair of fields, which is no sentinel; and at most one of the three captures changes
in a step. -/
def Obligations.FixesChangeOnlyByTheirRecords : Prop :=
  ∀ s t : State, step s = .next t → s.ph = .dec ∨ s.ph = .xor ∨ s.ph = .scan →
    (t.entry ≠ s.entry → s.ph = .scan ∧ t.mode = s.mode ∧ t.exit = s.exit ∧
      ∃ (w : List Byte) (f : Fix), w.length = 32 ∧
        (∀ o, o < 32 → s.stream.read (s.ri + o) = some (w.getD o 0)) ∧ w.getD 0 0 = 0x19 ∧
        t.entry = some f ∧ f.ints = (refField w 21, refField w 25) ∧ f.ints ≠ (0, 0) ∧ f.ints ≠ (-1, -1)) ∧
    (t.exit ≠ s.exit → s.ph = .scan ∧ t.mode = s.mode ∧ t.entry = s.entry ∧
      ∃ (w : List Byte) (f : Fix), w.length = 32 ∧
        (∀ o, o < 32 → s.stream.read (s.ri + o) = some (w.getD o 0)) ∧ w.getD 0 0 = 0x29 ∧
        t.exit = some f ∧ f.ints = (refField w 21, refField w 25) ∧ f.ints ≠ (0, 0) ∧ f.ints ≠ (-1, -1))

/-- R17, R18, R101, R103: in phase DEC the stream only grows at its end; in phase XOR its length and its first 32
bytes stay; in phases SCAN and DONE it is read-only until START. -/
def Obligations.StreamChangesAsItsPhaseAllows : Prop :=
  ∀ s t : State, step s = .next t →
    (s.ph = .dec → s.sl ≤ t.sl ∧ ∀ a, a < s.sl → t.stream.read a = s.stream.read a) ∧
    (s.ph = .xor → t.sl = s.sl ∧ ∀ a, a < 32 → t.stream.read a = s.stream.read a) ∧
    (s.ph = .scan ∨ (s.ph = .done ∧ t.ph = .done) → t.sl = s.sl ∧ t.stream = s.stream)

/-- R18, R92: during a run the stream never holds more than 32640 bytes for each chunk of the input. -/
def Obligations.StreamLengthIsBounded : Prop :=
  ∀ s : State, Inv s → s.ph = .dec ∨ s.ph = .xor ∨ s.ph = .scan →
    s.sl ≤ 32640 * ((s.len + 143) / 144)

/-- R164: an input the host loads at IDLE or DONE, with no START outstanding, is the input the block sees. That the
host's START sets the request bit and leaves the phase to the next step is the model's choice (log entry 3). -/
def Obligations.LoadedInputIsWhatTheBlockSees : Prop :=
  ∀ (s : State) (bs : List Byte), s.ph = .idle ∨ s.ph = .done → s.startReq = false →
    (s.hostLoad bs).hostStart.inputBytes = bs ∧ (s.hostLoad bs).hostStart.startReq = true ∧
      (s.hostLoad bs).hostStart.ph = s.ph

/-! ### The three units as functions -/

/-- R66, R87, R89 (93 entry U2): the bits of a chunk after its first END, and the bits too few for a code, change
nothing of its output. -/
def Obligations.IgnoredChunkBitsDoNotMatter : Prop :=
  ∀ x y : List Byte, x.length = y.length →
    (∀ k, 9 * k + 9 ≤ 8 * x.length → (∀ j, j < k → refCode x (9 * j) ≠ 0) →
      refCode x (9 * k) = refCode y (9 * k)) →
    blockDecode x = blockDecode y

/-- R92: a chunk of `n` bytes appends at most 255 bytes for each of its at most `8n / 9` codes, so a full chunk at
most 32640. -/
def Obligations.ChunkOutputIsBounded : Prop :=
  ∀ x : List Byte, (blockDecode x).length ≤ 255 * (8 * x.length / 9)

/-- R104: each byte of the reversed stream is the XOR of the bytes of its residue class up to it. -/
def Obligations.XorDecClosedForm : Prop :=
  ∀ (p : List Byte) (i : Nat), i < p.length →
    (xorDec p).length = p.length ∧
    (xorDec p).getD i 0 =
      (List.range (i / 32 + 1)).foldl (fun acc k => acc ^^^ p.getD (i % 32 + 32 * k) 0) 0 ∧
    (i < 32 → (xorDec p).getD i 0 = p.getD i 0) ∧
    (32 ≤ i → (xorDec p).getD i 0 = p.getD i 0 ^^^ (xorDec p).getD (i - 32) 0)

/-- R106: the round-trip law of unit 2 and the forward difference transform. -/
def Obligations.XorDecRoundTrip : Prop :=
  ∀ p : List Byte, fwdDiff (xorDec p) = p ∧ xorDec (fwdDiff p) = p

/-- R119: the last qualifying record of each kind decides its capture. -/
def Obligations.LastQualifyingRecordWins : Prop :=
  ∀ (d : List Byte) (n : Nat),
    (scanRecords d n).mode = (List.range n).reverse.findSome? (fun j =>
      if (d.getD (32 * j) 0).toNat = 0x14 ∧ 7 ≤ (d.getD (32 * j + 16) 0).toNat
      then some (d.getD (32 * j + 28) 0) else none) ∧
    (scanRecords d n).entry = (List.range n).reverse.findSome? (fun j =>
      if (d.getD (32 * j) 0).toNat = 0x19 then refFix d (32 * j) else none) ∧
    (scanRecords d n).exit = (List.range n).reverse.findSome? (fun j =>
      if (d.getD (32 * j) 0).toNat = 0x29 then refFix d (32 * j) else none)

/-- R168 (90 conflict C5): the length gate changes nothing of the result that the scan would not also give. -/
def Obligations.LengthGateNeverChangesTheResult : Prop :=
  ∀ d : List Byte, d.length < 64 →
    (scanRecords d (d.length / 32)).mode ≠ some 6 ∨ (scanRecords d (d.length / 32)).entry = none

/-! ### The step machine computes them -/

/-- R80, R90 to R93: phase DEC, from the state START leaves, appends exactly what BlockDecode gives for each chunk
in order, in at most `129 * ceil(LEN / 144) + 1` steps, and changes nothing else. -/
def Obligations.DecPhaseComputesThePreStream : Prop :=
  ∀ s : State, s.ph = .dec → s.cb = 0 → s.bc = 0 → s.stream = [] → s.sl = 0 →
    ∃ k, k ≤ 129 * chunkCount s.len + 1 ∧
      Host.Core.run core k s = .next { s with
        ph := .xor, cb := 144 * chunkCount s.len, bc := 0,
        stream := Memory.ofBytes (preStream s.inputBytes), sl := (preStream s.inputBytes).length }

/-- R105, R107: phase XOR rewrites the stream to XorDec of it in exactly `max(SL - 32, 0) + 1` steps, and changes
nothing else. -/
def Obligations.XorPhaseComputesXorDec : Prop :=
  ∀ (s : State) (p : List Byte), s.ph = .xor → s.xi = 32 → s.stream = Memory.ofBytes p → s.sl = p.length →
    Host.Core.run core (s.sl - 32 + 1) s =
        .next { s with ph := .scan, xi := max 32 s.sl, stream := Memory.ofBytes (xorDec p) } ∧
      ∀ j, j ≤ s.sl - 32 → ∃ u, Host.Core.run core j s = .next u ∧ u.ph = .xor

/-- R110, R112, R137: phase SCAN ends the run with Extract of the stream, after 1 step when `SL < 64` and after
exactly `floor(SL / 32) + 1` steps otherwise, with the stream as it was. -/
def Obligations.ScanPhaseComputesExtract : Prop :=
  ∀ (s : State) (d : List Byte), s.ph = .scan → s.ri = 0 → s.mode = none → s.entry = none → s.exit = none →
    s.stream = Memory.ofBytes d → s.sl = d.length →
    ∃ t, Host.Core.run core (if s.sl < 64 then 1 else s.sl / 32 + 1) s = .next t ∧
      t = { s with ph := .done, ri := t.ri, mode := t.mode, entry := t.entry, exit := t.exit, res := t.res } ∧
      resultInts t.res = extract d ∧
      (64 ≤ s.sl → t.mode = (scanRecords d (s.sl / 32)).mode ∧
        t.entry.map Fix.ints = (scanRecords d (s.sl / 32)).entry ∧
        t.exit.map Fix.ints = (scanRecords d (s.sl / 32)).exit) ∧
      (s.sl < 64 → t.mode = none ∧ t.entry = none ∧ t.exit = none) ∧
      ∀ j, j < (if s.sl < 64 then 1 else s.sl / 32 + 1) →
        ∃ u, Host.Core.run core j s = .next u ∧ u.ph = .scan

/-- R9, R138, R152: a run started by START reaches DONE for every input, with the stream and the result the
functions give, and stays there. The bound is R138's count and one step more, the one that takes up the request
bit, which is the model's own (log entry 3); that DONE then waits step by step is its choice too. -/
def Obligations.RunComputesTop : Prop :=
  ∀ s : State, s.ph = .idle ∨ s.ph = .done → s.startReq = true →
    ∀ n, runBound s.inputBytes ≤ n →
      ∃ t, Host.Core.run core n s = .next t ∧ t.ph = .done ∧
        t.stream = Memory.ofBytes (xorDec (preStream s.inputBytes)) ∧
        t.sl = (preStream s.inputBytes).length ∧
        resultInts t.res = top s.inputBytes ∧ t.inp = s.inp ∧ t.len = s.len

/-- R6, R31, R57: what the host sees at the end of a run is a function of the input alone: whatever an earlier run
left, two runs on the same input show the same. The host sees `RES`, `SL` and `S` at DONE; that it sees nothing of
them elsewhere, nor at DONE while its START is outstanding, is the model's choice (log entry 4). -/
def Obligations.RunDependsOnTheInputAlone : Prop :=
  (∀ s : State,
    (s.ph = .done → s.startReq = false → s.hostView.atDone = some (s.res, s.sl, s.stream)) ∧
    (s.ph ≠ .done ∨ s.startReq = true → s.hostView.atDone = none)) ∧
  ∀ s r : State, s.ph = .idle ∨ s.ph = .done → r.ph = .idle ∨ r.ph = .done →
    s.startReq = true → r.startReq = true → s.inputBytes = r.inputBytes →
    ∀ n m, runBound s.inputBytes ≤ n → runBound s.inputBytes ≤ m →
      ∃ t u, Host.Core.run core n s = .next t ∧ Host.Core.run core m r = .next u ∧
        t.ph = .done ∧ t.hostView = u.hostView ∧ t.hostView.atDone = some (t.res, t.sl, t.stream)

/-! ### The rendering of a coordinate -/

/-- R134, R135: the rendering of a nonzero coordinate is the normal binary64 number nearest to its exact degrees,
ties to even, with its sign; zero gives `+0.0`. The bit layout is the model's, from the family of IEEE formats
(log entry 10). -/
def Obligations.Binary64IsTheNearestNumber : Prop :=
  binary64 0 = 0 ∧
  ∀ raw : Raw, raw ≠ 0 →
    ∃ q f : Nat, 2 ^ 52 ≤ q ∧ q < 2 ^ 53 ∧ 1 ≤ f ∧ f ≤ 2046 ∧
      (binary64 raw).toNat = (if raw.toInt < 0 then 2 ^ 63 else 0) + f * 2 ^ 52 + (q - 2 ^ 52) ∧
      (∀ (q' : Nat) (e' : Int), q' < 2 ^ 53 →
        |(q : Rat) * 2 ^ ((f : Int) - 1075) - (|degrees raw|)| ≤ |(q' : Rat) * 2 ^ e' - (|degrees raw|)|) ∧
      (∀ (q' : Nat), q' < 2 ^ 53 → q' ≠ q →
        |(q : Rat) * 2 ^ ((f : Int) - 1075) - (|degrees raw|)| =
          |(q' : Rat) * 2 ^ ((f : Int) - 1075) - (|degrees raw|)| → q % 2 = 0)
end

