-- ==== Sys2Proof/Laws/Decode.lean ====
section
/-! SUPPORT. One lemma for each bit-field and byte-order helper: its bits or its number. -/

namespace Sys2Proof

/-- Joining a byte below a number is counting in base 256. -/
theorem joinByte (a : Nat) (b : Byte) : a <<< 8 ||| b.toNat = a * 256 + b.toNat := by
  have := Nat.two_pow_add_eq_or_of_lt b.isLt a
  rw [Nat.shiftLeft_eq, Nat.mul_comm, ← this]

/-- The number of a code window (R63): the two bytes, shifted and cut to nine bits. -/
theorem codeWindow_toNat (b0 b1 : Byte) (bo : Nat) :
    (codeWindow b0 b1 bo).toNat = ((b0.toNat * 256 + b1.toNat) >>> (7 - bo)) % 512 := by
  have h : (b0 ++ b1 : BitVec 16).toNat = b0.toNat * 256 + b1.toNat := by
    rw [BitVec.toNat_append, joinByte]
  simp only [codeWindow, BitVec.toNat_setWidth, BitVec.toNat_ushiftRight]
  rw [← h]

/-- The bits of a code window (R62): the high bits come from the first byte, the low ones from the second. -/
theorem codeWindow_getLsbD (b0 b1 : Byte) {bo i : Nat} (hi : i < 9) :
    (codeWindow b0 b1 bo).getLsbD i =
      if 7 - bo + i < 8 then b1.getLsbD (7 - bo + i) else b0.getLsbD (7 - bo + i - 8) := by
  simp only [codeWindow, BitVec.getLsbD_setWidth, BitVec.getLsbD_ushiftRight, BitVec.getLsbD_append, hi,
    decide_true, Bool.true_and]

theorem codeOf_toNat (l : Bool) (p : Byte) : (codeOf l p).toNat = (if l then 256 else 0) + p.toNat := by
  revert l p; decide +kernel

theorem codeOf_payload (l : Bool) (p : Byte) : codePayload (codeOf l p) = p := by
  revert l p; decide +kernel

/-- The number of a coordinate field (R72): its four bytes, most significant first. -/
theorem rawOfBytes_toNat (b0 b1 b2 b3 : Byte) :
    (rawOfBytes b0 b1 b2 b3).toNat =
      b0.toNat * 2 ^ 24 + b1.toNat * 2 ^ 16 + b2.toNat * 2 ^ 8 + b3.toNat := by
  simp only [rawOfBytes, BitVec.toNat_append, joinByte]
  omega

/-- A coordinate field put together from its own four bytes is itself (R72). -/
theorem rawOfBytes_rawByte (r : Raw) :
    rawOfBytes (rawByte r 0) (rawByte r 1) (rawByte r 2) (rawByte r 3) = r := by
  apply BitVec.eq_of_getLsbD_eq
  intro i hi
  simp only [rawOfBytes, rawByte, BitVec.getLsbD_append, BitVec.getLsbD_setWidth,
    BitVec.getLsbD_ushiftRight]
  by_cases h0 : i < 8
  · simp [h0]
  · by_cases h1 : i < 16
    · simp [h0, show i - 8 < 8 by omega, show 8 + (i - 8) = i by omega]
    · by_cases h2 : i < 24
      · simp [h0, show ¬ i - 8 < 8 by omega, show i - 8 - 8 < 8 by omega,
          show 16 + (i - 8 - 8) = i by omega]
      · simp [h0, show ¬ i - 8 < 8 by omega, show ¬ i - 8 - 8 < 8 by omega,
          show i - 8 - 8 - 8 < 8 by omega, show 24 + (i - 8 - 8 - 8) = i by omega]

/-- `s32` is the signed reading of a 32-bit register (00_scope.md section 6). -/
theorem Machine.s32_toNat (r : Raw) : Machine.s32 r.toNat = r.toInt := by
  rw [Machine.s32, BitVec.toInt_eq_toNat_cond]
  split <;> split <;> first | rfl | omega

theorem makeRecord_length (ty : Byte) (fs : List (Nat × Byte)) : (makeRecord ty fs).length = 32 := by
  have : ∀ (l : List (Nat × Byte)) (w : List Byte),
      (l.foldl (fun w f => w.set f.1 f.2) w).length = w.length := by
    intro l
    induction l with
    | nil => intro w; rfl
    | cons f rest ih => intro w; simp [ih]
  rw [makeRecord, this]
  simp

/-- The bits of a packed byte (R44): bit 7 is `f 0`. -/
theorem byteOfBits_getLsbD (f : Nat → Bool) {i : Nat} (hi : i < 8) :
    (byteOfBits f).getLsbD i = f (7 - i) := by
  have h : ∀ a b c d e g h k : Bool, ∀ j : Fin 8,
      (BitVec.ofBool a ++ BitVec.ofBool b ++ BitVec.ofBool c ++ BitVec.ofBool d ++ BitVec.ofBool e ++
        BitVec.ofBool g ++ BitVec.ofBool h ++ BitVec.ofBool k : BitVec 8).getLsbD j =
        [k, h, g, e, d, c, b, a].getD j false := by decide +kernel
  rw [byteOfBits, h _ _ _ _ _ _ _ _ ⟨i, hi⟩]
  have : i = 0 ∨ i = 1 ∨ i = 2 ∨ i = 3 ∨ i = 4 ∨ i = 5 ∨ i = 6 ∨ i = 7 := by omega
  rcases this with rfl | rfl | rfl | rfl | rfl | rfl | rfl | rfl <;> rfl

theorem codeAtStart_window (c : Code) :
    codeAtStart c = [(codeAtStart c).getD 0 0, (codeAtStart c).getD 1 0] ∧
      codeWindow ((codeAtStart c).getD 0 0) ((codeAtStart c).getD 1 0) 0 = c := by
  refine ⟨rfl, ?_⟩
  revert c; decide +kernel

theorem recordOfWord_length (w : Nat) : (recordOfWord w).length = 32 := by
  simp [recordOfWord]

end Sys2Proof
end

