-- ==== Sys2Proof/Laws/Memory.lean ====
section
/-! SUPPORT. What the memory operations do: reading after writing, the canonical form, and memories that
hold exactly the addresses `0` to `n - 1`. -/

namespace Sys2Proof.Machine

@[simp] theorem Memory.read_nil (a : Nat) : Memory.read [] a = none := rfl

/-! ### One byte -/

theorem Memory.read_write_same (m : Memory) (a : Nat) (b : Byte) : (m.write a b).read a = some b := by
  induction m with
  | nil => simp [Memory.write, Memory.read]
  | cons c rest ih =>
    obtain ⟨x, v⟩ := c
    by_cases h1 : a < x
    · simp [Memory.write, h1, Memory.read]
    · by_cases h2 : a = x
      · simp [Memory.write, h2, Memory.read]
      · have h3 : x ≠ a := fun h => h2 h.symm
        simp [Memory.write, h1, h2, Memory.read, h3, ih]

theorem Memory.read_write_other (m : Memory) {a c : Nat} (b : Byte) (h : c ≠ a) :
    (m.write a b).read c = m.read c := by
  have hac : ¬ a = c := fun e => h e.symm
  induction m with
  | nil => simp [Memory.write, Memory.read, hac]
  | cons d rest ih =>
    obtain ⟨x, v⟩ := d
    by_cases h1 : a < x
    · simp [Memory.write, h1, Memory.read, hac]
    · by_cases h2 : a = x
      · subst h2; simp [Memory.write, Memory.read, hac]
      · simp [Memory.write, h1, h2, Memory.read, ih]

theorem Memory.mem_write_keys (m : Memory) (a : Nat) (b : Byte) (x : Nat) :
    x ∈ (m.write a b).map Prod.fst ↔ x = a ∨ x ∈ m.map Prod.fst := by
  induction m with
  | nil => simp [Memory.write]
  | cons c rest ih =>
    obtain ⟨y, v⟩ := c
    by_cases h1 : a < y
    · simp [Memory.write, h1]
    · by_cases h2 : a = y
      · subst h2; simp [Memory.write]
      · simp only [Memory.write, h1, h2, if_false, List.map_cons, List.mem_cons, ih]
        tauto

theorem Memory.wf_write {m : Memory} (h : m.wf) (a : Nat) (b : Byte) : (m.write a b).wf := by
  induction m with
  | nil => simp [Memory.write, Memory.wf]
  | cons c rest ih =>
    obtain ⟨x, v⟩ := c
    simp only [Memory.wf, List.map_cons, List.pairwise_cons] at h
    by_cases h1 : a < x
    · simp only [Memory.write, h1, if_true, Memory.wf, List.map_cons, List.pairwise_cons]
      refine ⟨?_, h⟩
      intro y hy
      rcases List.mem_cons.1 hy with rfl | hy
      · exact h1
      · exact h1.trans (h.1 y hy)
    · by_cases h2 : a = x
      · subst h2
        simpa [Memory.write, Memory.wf] using h
      · simp only [Memory.write, h1, h2, if_false, Memory.wf, List.map_cons, List.pairwise_cons]
        refine ⟨?_, ih h.2⟩
        intro y hy
        rcases (Memory.mem_write_keys rest a b y).1 hy with rfl | hy
        · omega
        · exact h.1 y hy

/-- Writing an address that is listed does not change which addresses are listed. -/
theorem Memory.keys_write_of_mem {m : Memory} (h : m.wf) {a : Nat} (ha : a ∈ m.map Prod.fst) (b : Byte) :
    (m.write a b).map Prod.fst = m.map Prod.fst := by
  induction m with
  | nil => simp at ha
  | cons c rest ih =>
    obtain ⟨x, v⟩ := c
    simp only [Memory.wf, List.map_cons, List.pairwise_cons] at h
    simp only [List.map_cons, List.mem_cons] at ha
    rcases ha with rfl | ha
    · simp [Memory.write]
    · have hx := h.1 a ha
      simp [Memory.write, show ¬ a < x by omega, show ¬ a = x by omega, ih h.2 ha]

/-- Writing above every listed address puts the byte at the end. -/
theorem Memory.write_above {m : Memory} {a : Nat} (h : ∀ x ∈ m.map Prod.fst, x < a) (b : Byte) :
    m.write a b = m ++ [(a, b)] := by
  induction m with
  | nil => rfl
  | cons c rest ih =>
    obtain ⟨x, v⟩ := c
    have hx : x < a := h x (by simp)
    simp [Memory.write, show ¬ a < x by omega, show ¬ a = x by omega,
      ih fun y hy => h y (by simp [hy])]

theorem Memory.read_isSome_iff (m : Memory) (a : Nat) :
    (m.read a).isSome = true ↔ a ∈ m.map Prod.fst := by
  induction m with
  | nil => simp [Memory.read]
  | cons c rest ih =>
    obtain ⟨x, v⟩ := c
    by_cases h : x = a
    · simp [Memory.read, h]
    · simp [Memory.read, h, ih, show ¬ a = x from fun e => h e.symm]

/-! ### Several bytes -/

theorem Memory.read_append (x y : Memory) (c : Nat) :
    Memory.read (x ++ y) c = (x.read c).or (y.read c) := by
  induction x with
  | nil => simp
  | cons d rest ih =>
    obtain ⟨z, v⟩ := d
    by_cases h : z = c <;> simp [Memory.read, h, ih]

theorem Memory.read_filter (m : Memory) (p : Nat → Bool) (c : Nat) :
    Memory.read (m.filter fun d => p d.1) c = if p c then m.read c else none := by
  induction m with
  | nil => simp
  | cons d rest ih =>
    obtain ⟨z, v⟩ := d
    by_cases hz : z = c
    · subst hz
      cases hp : p z <;> simp [hp, Memory.read, ih]
    · cases hp : p z <;> simp [hp, Memory.read, hz, ih]

theorem Memory.read_cells (a : Nat) (bs : List Byte) (c : Nat) :
    (Memory.cells a bs).read c = if a ≤ c then bs[c - a]? else none := by
  induction bs generalizing a with
  | nil => simp [Memory.cells]
  | cons b rest ih =>
    by_cases h : a = c
    · subst h; simp [Memory.cells, Memory.read]
    · by_cases hle : a ≤ c
      · obtain ⟨k, rfl⟩ : ∃ k, c = a + 1 + k := ⟨c - (a + 1), by omega⟩
        simp [Memory.cells, Memory.read, h, ih, show a + 1 + k - a = k + 1 by omega,
          show a ≤ a + 1 + k by omega]
      · simp [Memory.cells, Memory.read, h, ih, hle, show ¬ a + 1 ≤ c by omega]

/-- Reading after writing several bytes, for any memory and any address. -/
theorem Memory.read_writeBytes (m : Memory) (a : Nat) (bs : List Byte) (c : Nat) :
    (m.writeBytes a bs).read c = if a ≤ c ∧ c < a + bs.length then bs[c - a]? else m.read c := by
  have h1 := Memory.read_filter m (fun z => decide (z < a)) c
  have h2 := Memory.read_filter m (fun z => decide (a + bs.length ≤ z)) c
  rw [Memory.writeBytes, Memory.read_append, Memory.read_append, Memory.read_cells, h1, h2]
  rcases Nat.lt_or_ge c a with h | h
  · simp [h, show ¬ a ≤ c by omega, show ¬ a + bs.length ≤ c by omega]
  · rcases Nat.lt_or_ge c (a + bs.length) with h' | h'
    · simp [h, h', show ¬ c < a by omega, show ¬ a + bs.length ≤ c by omega]
    · simp [h, h', show ¬ c < a by omega, show ¬ c < a + bs.length by omega,
        show bs.length ≤ c - a by omega]

theorem Memory.read_writeBytes_below (m : Memory) (a : Nat) (bs : List Byte) {c : Nat} (h : c < a) :
    (m.writeBytes a bs).read c = m.read c := by
  rw [Memory.read_writeBytes, if_neg (by omega)]

theorem Memory.read_writeBytes_above (m : Memory) (a : Nat) (bs : List Byte) {c : Nat}
    (h : a + bs.length ≤ c) : (m.writeBytes a bs).read c = m.read c := by
  rw [Memory.read_writeBytes, if_neg (by omega)]

theorem Memory.read_writeBytes_at (m : Memory) (a : Nat) (bs : List Byte) {k : Nat} (h : k < bs.length) :
    (m.writeBytes a bs).read (a + k) = bs[k]? := by
  rw [Memory.read_writeBytes, if_pos (by omega), Nat.add_sub_cancel_left]

theorem Memory.keys_cells (a : Nat) (bs : List Byte) :
    (Memory.cells a bs).map Prod.fst = List.range' a bs.length := by
  induction bs generalizing a with
  | nil => rfl
  | cons b rest ih => simp [Memory.cells, ih, List.range'_succ]

theorem Memory.wf_writeBytes {m : Memory} (h : m.wf) (a : Nat) (bs : List Byte) :
    (m.writeBytes a bs).wf := by
  have hsub : ∀ p : Host.Cell → Bool, ((m.filter p).map Prod.fst).Pairwise (· < ·) := fun p =>
    h.sublist (List.filter_sublist.map Prod.fst)
  have key : ∀ (p : Host.Cell → Bool) (x : Nat), x ∈ (m.filter p).map Prod.fst →
      ∃ c, c.1 = x ∧ p c = true := by
    intro p x hx
    obtain ⟨c, hc, rfl⟩ := List.mem_map.1 hx
    exact ⟨c, rfl, (List.mem_filter.1 hc).2⟩
  simp only [Memory.wf, Memory.writeBytes, List.map_append, Memory.keys_cells]
  rw [List.pairwise_append, List.pairwise_append]
  refine ⟨⟨hsub _, List.pairwise_lt_range', ?_⟩, hsub _, ?_⟩
  · intro x hx y hy
    obtain ⟨c, rfl, hc⟩ := key _ x hx
    have := List.mem_range'_1.1 hy
    simp only [decide_eq_true_eq] at hc
    omega
  · intro x hx y hy
    obtain ⟨d, rfl, hd⟩ := key _ y hy
    simp only [decide_eq_true_eq] at hd
    rcases List.mem_append.1 hx with hx | hx
    · obtain ⟨c, rfl, hc⟩ := key _ x hx
      simp only [decide_eq_true_eq] at hc
      omega
    · have := List.mem_range'_1.1 hx
      omega

/-! ### Memories that hold exactly the addresses `0` to `n - 1` -/

/-- A memory with exactly these addresses is in canonical form. -/
theorem Memory.wf_of_full {m : Memory} {n : Nat} (h : m.map Prod.fst = List.range n) : m.wf := by
  rw [Memory.wf, h]; exact List.pairwise_lt_range

theorem Memory.read_full {m : Memory} {n : Nat} (h : m.map Prod.fst = List.range n) {a : Nat}
    (ha : a < n) : ∃ b, m.read a = some b := by
  have : (m.read a).isSome = true := by rw [Memory.read_isSome_iff, h]; exact List.mem_range.2 ha
  exact Option.isSome_iff_exists.1 this

/-- Appending at the end of a full memory puts the new cells after the old ones. -/
theorem Memory.writeBytes_full {m : Memory} {n : Nat} (h : m.map Prod.fst = List.range n)
    (bs : List Byte) : m.writeBytes n bs = m ++ Memory.cells n bs := by
  have hlt : ∀ c ∈ m, c.1 < n := fun c hc => by
    have : c.1 ∈ m.map Prod.fst := List.mem_map.2 ⟨c, hc, rfl⟩
    rw [h] at this
    exact List.mem_range.1 this
  have h1 : m.filter (fun c => decide (c.1 < n)) = m :=
    List.filter_eq_self.2 fun c hc => by simpa using hlt c hc
  have h2 : m.filter (fun c => decide (n + bs.length ≤ c.1)) = [] :=
    List.filter_eq_nil_iff.2 fun c hc => by have := hlt c hc; simp; omega
  rw [Memory.writeBytes, h1, h2, List.append_nil]

theorem Memory.full_writeBytes {m : Memory} {n : Nat} (h : m.map Prod.fst = List.range n)
    (bs : List Byte) : (m.writeBytes n bs).map Prod.fst = List.range (n + bs.length) := by
  rw [Memory.writeBytes_full h, List.map_append, Memory.keys_cells, h, List.range_eq_range',
    List.range_eq_range', ← List.range'_append, Nat.zero_add, Nat.one_mul]

theorem Memory.full_write {m : Memory} {n : Nat} (h : m.map Prod.fst = List.range n) {a : Nat}
    (ha : a < n) (b : Byte) : (m.write a b).map Prod.fst = List.range n := by
  rw [Memory.keys_write_of_mem (Memory.wf_of_full h) (by rw [h]; exact List.mem_range.2 ha), h]

theorem Memory.full_ofBytes (bs : List Byte) :
    (Memory.ofBytes bs).map Prod.fst = List.range bs.length := by
  rw [Memory.ofBytes, Memory.keys_cells, List.range_eq_range']

theorem Memory.read_ofBytes (bs : List Byte) (a : Nat) : (Memory.ofBytes bs).read a = bs[a]? := by
  simp [Memory.ofBytes, Memory.read_cells]

theorem Memory.cells_append (a : Nat) (xs ys : List Byte) :
    Memory.cells a (xs ++ ys) = Memory.cells a xs ++ Memory.cells (a + xs.length) ys := by
  induction xs generalizing a with
  | nil => rfl
  | cons b rest ih =>
    simp only [List.cons_append, Memory.cells, ih, List.length_cons]
    rw [show a + 1 + rest.length = a + (rest.length + 1) by omega]

/-- Appending at the end of a stream is appending bytes (00_scope.md section 7, `Append`). -/
theorem Memory.ofBytes_append (xs ys : List Byte) :
    (Memory.ofBytes xs).writeBytes xs.length ys = Memory.ofBytes (xs ++ ys) := by
  rw [Memory.writeBytes_full (Memory.full_ofBytes xs), Memory.ofBytes, Memory.ofBytes,
    Memory.cells_append, Nat.zero_add]

/-- Two canonical memories that read the same everywhere are equal data. -/
theorem Memory.eq_of_read {m k : Memory} (hm : m.wf) (hk : k.wf) (h : ∀ a, m.read a = k.read a) :
    m = k := by
  induction m generalizing k with
  | nil =>
    cases k with
    | nil => rfl
    | cons c rest => obtain ⟨x, v⟩ := c; have := h x; simp [Memory.read] at this
  | cons c rest ih =>
    obtain ⟨x, v⟩ := c
    simp only [Memory.wf, List.map_cons, List.pairwise_cons] at hm
    cases k with
    | nil => have := h x; simp [Memory.read] at this
    | cons d rest' =>
      obtain ⟨y, w⟩ := d
      simp only [Memory.wf, List.map_cons, List.pairwise_cons] at hk
      have key : ∀ (z : Nat) (l : Memory), (∀ q ∈ l.map Prod.fst, z < q) → ∀ q ≤ z, l.read q = none := by
        intro z l hl q hq
        by_contra hne
        have := (Memory.read_isSome_iff l q).1 (by cases hh : l.read q <;> simp_all)
        exact absurd (hl q this) (by omega)
      have hxy : x = y := by
        rcases Nat.lt_trichotomy x y with hlt | heq | hgt
        · have := h x
          simp [Memory.read, show ¬ y = x by omega, key y rest' hk.1 x hlt.le] at this
        · exact heq
        · have := h y
          simp [Memory.read, show ¬ x = y by omega, key x rest hm.1 y hgt.le] at this
      subst hxy
      have hvw : v = w := by have := h x; simpa [Memory.read] using this
      subst hvw
      congr 1
      refine ih hm.2 hk.2 fun a => ?_
      by_cases ha : x = a
      · subst ha; rw [key x rest hm.1 x le_rfl, key x rest' hk.1 x le_rfl]
      · have := h a; simpa [Memory.read, ha] using this

/-- Rewriting one byte of a stream is setting one element of its bytes. -/
theorem Memory.ofBytes_write (bs : List Byte) {a : Nat} (h : a < bs.length) (b : Byte) :
    (Memory.ofBytes bs).write a b = Memory.ofBytes (bs.set a b) := by
  have hf := Memory.full_ofBytes bs
  refine Memory.eq_of_read (Memory.wf_write (Memory.wf_of_full hf) a b)
    (Memory.wf_of_full (Memory.full_ofBytes _)) fun c => ?_
  rw [Memory.read_ofBytes, List.getElem?_set]
  by_cases hc : a = c
  · subst hc; rw [Memory.read_write_same, if_pos rfl, if_pos h]
  · rw [Memory.read_write_other _ _ (fun e => hc e.symm), Memory.read_ofBytes, if_neg hc]

/-- Reset's two spaces are in canonical form. -/
theorem State.reset_memories_wf : State.reset.inp.wf ∧ State.reset.stream.wf :=
  ⟨List.Pairwise.nil, List.Pairwise.nil⟩

end Sys2Proof.Machine
end

