-- ==== Sys2Proof/Laws/State.lean ====
section
/-! SUPPORT. One lemma per field per register update, so that no later proof unfolds an update. -/

namespace Sys2Proof.Machine

variable (s : State)

/-! ### setPhase -/

@[simp] theorem State.setPhase_inp (p : Phase) : (s.setPhase p).inp = s.inp := rfl
@[simp] theorem State.setPhase_len (p : Phase) : (s.setPhase p).len = s.len := rfl
@[simp] theorem State.setPhase_ph (p : Phase) : (s.setPhase p).ph = p := rfl
@[simp] theorem State.setPhase_cb (p : Phase) : (s.setPhase p).cb = s.cb := rfl
@[simp] theorem State.setPhase_bc (p : Phase) : (s.setPhase p).bc = s.bc := rfl
@[simp] theorem State.setPhase_stream (p : Phase) : (s.setPhase p).stream = s.stream := rfl
@[simp] theorem State.setPhase_sl (p : Phase) : (s.setPhase p).sl = s.sl := rfl
@[simp] theorem State.setPhase_xi (p : Phase) : (s.setPhase p).xi = s.xi := rfl
@[simp] theorem State.setPhase_ri (p : Phase) : (s.setPhase p).ri = s.ri := rfl
@[simp] theorem State.setPhase_mode (p : Phase) : (s.setPhase p).mode = s.mode := rfl
@[simp] theorem State.setPhase_entry (p : Phase) : (s.setPhase p).entry = s.entry := rfl
@[simp] theorem State.setPhase_exit (p : Phase) : (s.setPhase p).exit = s.exit := rfl
@[simp] theorem State.setPhase_res (p : Phase) : (s.setPhase p).res = s.res := rfl
@[simp] theorem State.setPhase_startReq (p : Phase) : (s.setPhase p).startReq = s.startReq := rfl

/-! ### appendStream -/

@[simp] theorem State.appendStream_inp (bs : List Byte) : (s.appendStream bs).inp = s.inp := rfl
@[simp] theorem State.appendStream_len (bs : List Byte) : (s.appendStream bs).len = s.len := rfl
@[simp] theorem State.appendStream_ph (bs : List Byte) : (s.appendStream bs).ph = s.ph := rfl
@[simp] theorem State.appendStream_cb (bs : List Byte) : (s.appendStream bs).cb = s.cb := rfl
@[simp] theorem State.appendStream_bc (bs : List Byte) : (s.appendStream bs).bc = s.bc := rfl
@[simp] theorem State.appendStream_stream (bs : List Byte) : (s.appendStream bs).stream = s.stream.writeBytes s.sl bs := rfl
@[simp] theorem State.appendStream_sl (bs : List Byte) : (s.appendStream bs).sl = s.sl + bs.length := rfl
@[simp] theorem State.appendStream_xi (bs : List Byte) : (s.appendStream bs).xi = s.xi := rfl
@[simp] theorem State.appendStream_ri (bs : List Byte) : (s.appendStream bs).ri = s.ri := rfl
@[simp] theorem State.appendStream_mode (bs : List Byte) : (s.appendStream bs).mode = s.mode := rfl
@[simp] theorem State.appendStream_entry (bs : List Byte) : (s.appendStream bs).entry = s.entry := rfl
@[simp] theorem State.appendStream_exit (bs : List Byte) : (s.appendStream bs).exit = s.exit := rfl
@[simp] theorem State.appendStream_res (bs : List Byte) : (s.appendStream bs).res = s.res := rfl
@[simp] theorem State.appendStream_startReq (bs : List Byte) : (s.appendStream bs).startReq = s.startReq := rfl

/-! ### advanceCursor -/

@[simp] theorem State.advanceCursor_inp : s.advanceCursor.inp = s.inp := rfl
@[simp] theorem State.advanceCursor_len : s.advanceCursor.len = s.len := rfl
@[simp] theorem State.advanceCursor_ph : s.advanceCursor.ph = s.ph := rfl
@[simp] theorem State.advanceCursor_cb : s.advanceCursor.cb = s.cb := rfl
@[simp] theorem State.advanceCursor_bc : s.advanceCursor.bc = s.bc + 9 := rfl
@[simp] theorem State.advanceCursor_stream : s.advanceCursor.stream = s.stream := rfl
@[simp] theorem State.advanceCursor_sl : s.advanceCursor.sl = s.sl := rfl
@[simp] theorem State.advanceCursor_xi : s.advanceCursor.xi = s.xi := rfl
@[simp] theorem State.advanceCursor_ri : s.advanceCursor.ri = s.ri := rfl
@[simp] theorem State.advanceCursor_mode : s.advanceCursor.mode = s.mode := rfl
@[simp] theorem State.advanceCursor_entry : s.advanceCursor.entry = s.entry := rfl
@[simp] theorem State.advanceCursor_exit : s.advanceCursor.exit = s.exit := rfl
@[simp] theorem State.advanceCursor_res : s.advanceCursor.res = s.res := rfl
@[simp] theorem State.advanceCursor_startReq : s.advanceCursor.startReq = s.startReq := rfl

/-! ### nextChunk -/

@[simp] theorem State.nextChunk_inp : s.nextChunk.inp = s.inp := rfl
@[simp] theorem State.nextChunk_len : s.nextChunk.len = s.len := rfl
@[simp] theorem State.nextChunk_ph : s.nextChunk.ph = s.ph := rfl
@[simp] theorem State.nextChunk_cb : s.nextChunk.cb = s.cb + 144 := rfl
@[simp] theorem State.nextChunk_bc : s.nextChunk.bc = 0 := rfl
@[simp] theorem State.nextChunk_stream : s.nextChunk.stream = s.stream := rfl
@[simp] theorem State.nextChunk_sl : s.nextChunk.sl = s.sl := rfl
@[simp] theorem State.nextChunk_xi : s.nextChunk.xi = s.xi := rfl
@[simp] theorem State.nextChunk_ri : s.nextChunk.ri = s.ri := rfl
@[simp] theorem State.nextChunk_mode : s.nextChunk.mode = s.mode := rfl
@[simp] theorem State.nextChunk_entry : s.nextChunk.entry = s.entry := rfl
@[simp] theorem State.nextChunk_exit : s.nextChunk.exit = s.exit := rfl
@[simp] theorem State.nextChunk_res : s.nextChunk.res = s.res := rfl
@[simp] theorem State.nextChunk_startReq : s.nextChunk.startReq = s.startReq := rfl

/-! ### storeStream -/

@[simp] theorem State.storeStream_inp (a : Nat) (b : Byte) : (s.storeStream a b).inp = s.inp := rfl
@[simp] theorem State.storeStream_len (a : Nat) (b : Byte) : (s.storeStream a b).len = s.len := rfl
@[simp] theorem State.storeStream_ph (a : Nat) (b : Byte) : (s.storeStream a b).ph = s.ph := rfl
@[simp] theorem State.storeStream_cb (a : Nat) (b : Byte) : (s.storeStream a b).cb = s.cb := rfl
@[simp] theorem State.storeStream_bc (a : Nat) (b : Byte) : (s.storeStream a b).bc = s.bc := rfl
@[simp] theorem State.storeStream_stream (a : Nat) (b : Byte) : (s.storeStream a b).stream = s.stream.write a b := rfl
@[simp] theorem State.storeStream_sl (a : Nat) (b : Byte) : (s.storeStream a b).sl = s.sl := rfl
@[simp] theorem State.storeStream_xi (a : Nat) (b : Byte) : (s.storeStream a b).xi = s.xi := rfl
@[simp] theorem State.storeStream_ri (a : Nat) (b : Byte) : (s.storeStream a b).ri = s.ri := rfl
@[simp] theorem State.storeStream_mode (a : Nat) (b : Byte) : (s.storeStream a b).mode = s.mode := rfl
@[simp] theorem State.storeStream_entry (a : Nat) (b : Byte) : (s.storeStream a b).entry = s.entry := rfl
@[simp] theorem State.storeStream_exit (a : Nat) (b : Byte) : (s.storeStream a b).exit = s.exit := rfl
@[simp] theorem State.storeStream_res (a : Nat) (b : Byte) : (s.storeStream a b).res = s.res := rfl
@[simp] theorem State.storeStream_startReq (a : Nat) (b : Byte) : (s.storeStream a b).startReq = s.startReq := rfl

/-! ### nextXorIndex -/

@[simp] theorem State.nextXorIndex_inp : s.nextXorIndex.inp = s.inp := rfl
@[simp] theorem State.nextXorIndex_len : s.nextXorIndex.len = s.len := rfl
@[simp] theorem State.nextXorIndex_ph : s.nextXorIndex.ph = s.ph := rfl
@[simp] theorem State.nextXorIndex_cb : s.nextXorIndex.cb = s.cb := rfl
@[simp] theorem State.nextXorIndex_bc : s.nextXorIndex.bc = s.bc := rfl
@[simp] theorem State.nextXorIndex_stream : s.nextXorIndex.stream = s.stream := rfl
@[simp] theorem State.nextXorIndex_sl : s.nextXorIndex.sl = s.sl := rfl
@[simp] theorem State.nextXorIndex_xi : s.nextXorIndex.xi = s.xi + 1 := rfl
@[simp] theorem State.nextXorIndex_ri : s.nextXorIndex.ri = s.ri := rfl
@[simp] theorem State.nextXorIndex_mode : s.nextXorIndex.mode = s.mode := rfl
@[simp] theorem State.nextXorIndex_entry : s.nextXorIndex.entry = s.entry := rfl
@[simp] theorem State.nextXorIndex_exit : s.nextXorIndex.exit = s.exit := rfl
@[simp] theorem State.nextXorIndex_res : s.nextXorIndex.res = s.res := rfl
@[simp] theorem State.nextXorIndex_startReq : s.nextXorIndex.startReq = s.startReq := rfl

/-! ### nextRecord -/

@[simp] theorem State.nextRecord_inp : s.nextRecord.inp = s.inp := rfl
@[simp] theorem State.nextRecord_len : s.nextRecord.len = s.len := rfl
@[simp] theorem State.nextRecord_ph : s.nextRecord.ph = s.ph := rfl
@[simp] theorem State.nextRecord_cb : s.nextRecord.cb = s.cb := rfl
@[simp] theorem State.nextRecord_bc : s.nextRecord.bc = s.bc := rfl
@[simp] theorem State.nextRecord_stream : s.nextRecord.stream = s.stream := rfl
@[simp] theorem State.nextRecord_sl : s.nextRecord.sl = s.sl := rfl
@[simp] theorem State.nextRecord_xi : s.nextRecord.xi = s.xi := rfl
@[simp] theorem State.nextRecord_ri : s.nextRecord.ri = s.ri + 32 := rfl
@[simp] theorem State.nextRecord_mode : s.nextRecord.mode = s.mode := rfl
@[simp] theorem State.nextRecord_entry : s.nextRecord.entry = s.entry := rfl
@[simp] theorem State.nextRecord_exit : s.nextRecord.exit = s.exit := rfl
@[simp] theorem State.nextRecord_res : s.nextRecord.res = s.res := rfl
@[simp] theorem State.nextRecord_startReq : s.nextRecord.startReq = s.startReq := rfl

/-! ### captureMode -/

@[simp] theorem State.captureMode_inp (m : Byte) : (s.captureMode m).inp = s.inp := rfl
@[simp] theorem State.captureMode_len (m : Byte) : (s.captureMode m).len = s.len := rfl
@[simp] theorem State.captureMode_ph (m : Byte) : (s.captureMode m).ph = s.ph := rfl
@[simp] theorem State.captureMode_cb (m : Byte) : (s.captureMode m).cb = s.cb := rfl
@[simp] theorem State.captureMode_bc (m : Byte) : (s.captureMode m).bc = s.bc := rfl
@[simp] theorem State.captureMode_stream (m : Byte) : (s.captureMode m).stream = s.stream := rfl
@[simp] theorem State.captureMode_sl (m : Byte) : (s.captureMode m).sl = s.sl := rfl
@[simp] theorem State.captureMode_xi (m : Byte) : (s.captureMode m).xi = s.xi := rfl
@[simp] theorem State.captureMode_ri (m : Byte) : (s.captureMode m).ri = s.ri := rfl
@[simp] theorem State.captureMode_mode (m : Byte) : (s.captureMode m).mode = some m := rfl
@[simp] theorem State.captureMode_entry (m : Byte) : (s.captureMode m).entry = s.entry := rfl
@[simp] theorem State.captureMode_exit (m : Byte) : (s.captureMode m).exit = s.exit := rfl
@[simp] theorem State.captureMode_res (m : Byte) : (s.captureMode m).res = s.res := rfl
@[simp] theorem State.captureMode_startReq (m : Byte) : (s.captureMode m).startReq = s.startReq := rfl

/-! ### captureEntry -/

@[simp] theorem State.captureEntry_inp (f : Fix) : (s.captureEntry f).inp = s.inp := rfl
@[simp] theorem State.captureEntry_len (f : Fix) : (s.captureEntry f).len = s.len := rfl
@[simp] theorem State.captureEntry_ph (f : Fix) : (s.captureEntry f).ph = s.ph := rfl
@[simp] theorem State.captureEntry_cb (f : Fix) : (s.captureEntry f).cb = s.cb := rfl
@[simp] theorem State.captureEntry_bc (f : Fix) : (s.captureEntry f).bc = s.bc := rfl
@[simp] theorem State.captureEntry_stream (f : Fix) : (s.captureEntry f).stream = s.stream := rfl
@[simp] theorem State.captureEntry_sl (f : Fix) : (s.captureEntry f).sl = s.sl := rfl
@[simp] theorem State.captureEntry_xi (f : Fix) : (s.captureEntry f).xi = s.xi := rfl
@[simp] theorem State.captureEntry_ri (f : Fix) : (s.captureEntry f).ri = s.ri := rfl
@[simp] theorem State.captureEntry_mode (f : Fix) : (s.captureEntry f).mode = s.mode := rfl
@[simp] theorem State.captureEntry_entry (f : Fix) : (s.captureEntry f).entry = some f := rfl
@[simp] theorem State.captureEntry_exit (f : Fix) : (s.captureEntry f).exit = s.exit := rfl
@[simp] theorem State.captureEntry_res (f : Fix) : (s.captureEntry f).res = s.res := rfl
@[simp] theorem State.captureEntry_startReq (f : Fix) : (s.captureEntry f).startReq = s.startReq := rfl

/-! ### captureExit -/

@[simp] theorem State.captureExit_inp (f : Fix) : (s.captureExit f).inp = s.inp := rfl
@[simp] theorem State.captureExit_len (f : Fix) : (s.captureExit f).len = s.len := rfl
@[simp] theorem State.captureExit_ph (f : Fix) : (s.captureExit f).ph = s.ph := rfl
@[simp] theorem State.captureExit_cb (f : Fix) : (s.captureExit f).cb = s.cb := rfl
@[simp] theorem State.captureExit_bc (f : Fix) : (s.captureExit f).bc = s.bc := rfl
@[simp] theorem State.captureExit_stream (f : Fix) : (s.captureExit f).stream = s.stream := rfl
@[simp] theorem State.captureExit_sl (f : Fix) : (s.captureExit f).sl = s.sl := rfl
@[simp] theorem State.captureExit_xi (f : Fix) : (s.captureExit f).xi = s.xi := rfl
@[simp] theorem State.captureExit_ri (f : Fix) : (s.captureExit f).ri = s.ri := rfl
@[simp] theorem State.captureExit_mode (f : Fix) : (s.captureExit f).mode = s.mode := rfl
@[simp] theorem State.captureExit_entry (f : Fix) : (s.captureExit f).entry = s.entry := rfl
@[simp] theorem State.captureExit_exit (f : Fix) : (s.captureExit f).exit = some f := rfl
@[simp] theorem State.captureExit_res (f : Fix) : (s.captureExit f).res = s.res := rfl
@[simp] theorem State.captureExit_startReq (f : Fix) : (s.captureExit f).startReq = s.startReq := rfl

/-! ### finish -/

@[simp] theorem State.finish_inp (r : Option Result) : (s.finish r).inp = s.inp := rfl
@[simp] theorem State.finish_len (r : Option Result) : (s.finish r).len = s.len := rfl
@[simp] theorem State.finish_ph (r : Option Result) : (s.finish r).ph = .done := rfl
@[simp] theorem State.finish_cb (r : Option Result) : (s.finish r).cb = s.cb := rfl
@[simp] theorem State.finish_bc (r : Option Result) : (s.finish r).bc = s.bc := rfl
@[simp] theorem State.finish_stream (r : Option Result) : (s.finish r).stream = s.stream := rfl
@[simp] theorem State.finish_sl (r : Option Result) : (s.finish r).sl = s.sl := rfl
@[simp] theorem State.finish_xi (r : Option Result) : (s.finish r).xi = s.xi := rfl
@[simp] theorem State.finish_ri (r : Option Result) : (s.finish r).ri = s.ri := rfl
@[simp] theorem State.finish_mode (r : Option Result) : (s.finish r).mode = s.mode := rfl
@[simp] theorem State.finish_entry (r : Option Result) : (s.finish r).entry = s.entry := rfl
@[simp] theorem State.finish_exit (r : Option Result) : (s.finish r).exit = s.exit := rfl
@[simp] theorem State.finish_res (r : Option Result) : (s.finish r).res = r := rfl
@[simp] theorem State.finish_startReq (r : Option Result) : (s.finish r).startReq = s.startReq := rfl

/-! ### started -/

@[simp] theorem State.started_inp : s.started.inp = s.inp := rfl
@[simp] theorem State.started_len : s.started.len = s.len := rfl
@[simp] theorem State.started_ph : s.started.ph = .dec := rfl
@[simp] theorem State.started_cb : s.started.cb = 0 := rfl
@[simp] theorem State.started_bc : s.started.bc = 0 := rfl
@[simp] theorem State.started_stream : s.started.stream = [] := rfl
@[simp] theorem State.started_sl : s.started.sl = 0 := rfl
@[simp] theorem State.started_xi : s.started.xi = 32 := rfl
@[simp] theorem State.started_ri : s.started.ri = 0 := rfl
@[simp] theorem State.started_mode : s.started.mode = none := rfl
@[simp] theorem State.started_entry : s.started.entry = none := rfl
@[simp] theorem State.started_exit : s.started.exit = none := rfl
@[simp] theorem State.started_res : s.started.res = none := rfl
@[simp] theorem State.started_startReq : s.started.startReq = false := rfl

/-! ### reset -/

@[simp] theorem State.reset_inp : State.reset.inp = [] := rfl
@[simp] theorem State.reset_len : State.reset.len = 0 := rfl
@[simp] theorem State.reset_ph : State.reset.ph = .idle := rfl
@[simp] theorem State.reset_cb : State.reset.cb = 0 := rfl
@[simp] theorem State.reset_bc : State.reset.bc = 0 := rfl
@[simp] theorem State.reset_stream : State.reset.stream = [] := rfl
@[simp] theorem State.reset_sl : State.reset.sl = 0 := rfl
@[simp] theorem State.reset_xi : State.reset.xi = 32 := rfl
@[simp] theorem State.reset_ri : State.reset.ri = 0 := rfl
@[simp] theorem State.reset_mode : State.reset.mode = none := rfl
@[simp] theorem State.reset_entry : State.reset.entry = none := rfl
@[simp] theorem State.reset_exit : State.reset.exit = none := rfl
@[simp] theorem State.reset_res : State.reset.res = none := rfl
@[simp] theorem State.reset_startReq : State.reset.startReq = false := rfl

/-! ### the choice inside a capture -/

@[simp] theorem State.ite_inp (c : Prop) [Decidable c] (t : State) :
    (if c then s else t).inp = if c then s.inp else t.inp := by split <;> rfl
@[simp] theorem State.ite_len (c : Prop) [Decidable c] (t : State) :
    (if c then s else t).len = if c then s.len else t.len := by split <;> rfl
@[simp] theorem State.ite_ph (c : Prop) [Decidable c] (t : State) :
    (if c then s else t).ph = if c then s.ph else t.ph := by split <;> rfl
@[simp] theorem State.ite_cb (c : Prop) [Decidable c] (t : State) :
    (if c then s else t).cb = if c then s.cb else t.cb := by split <;> rfl
@[simp] theorem State.ite_bc (c : Prop) [Decidable c] (t : State) :
    (if c then s else t).bc = if c then s.bc else t.bc := by split <;> rfl
@[simp] theorem State.ite_stream (c : Prop) [Decidable c] (t : State) :
    (if c then s else t).stream = if c then s.stream else t.stream := by split <;> rfl
@[simp] theorem State.ite_sl (c : Prop) [Decidable c] (t : State) :
    (if c then s else t).sl = if c then s.sl else t.sl := by split <;> rfl
@[simp] theorem State.ite_xi (c : Prop) [Decidable c] (t : State) :
    (if c then s else t).xi = if c then s.xi else t.xi := by split <;> rfl
@[simp] theorem State.ite_ri (c : Prop) [Decidable c] (t : State) :
    (if c then s else t).ri = if c then s.ri else t.ri := by split <;> rfl
@[simp] theorem State.ite_mode (c : Prop) [Decidable c] (t : State) :
    (if c then s else t).mode = if c then s.mode else t.mode := by split <;> rfl
@[simp] theorem State.ite_entry (c : Prop) [Decidable c] (t : State) :
    (if c then s else t).entry = if c then s.entry else t.entry := by split <;> rfl
@[simp] theorem State.ite_exit (c : Prop) [Decidable c] (t : State) :
    (if c then s else t).exit = if c then s.exit else t.exit := by split <;> rfl
@[simp] theorem State.ite_res (c : Prop) [Decidable c] (t : State) :
    (if c then s else t).res = if c then s.res else t.res := by split <;> rfl
@[simp] theorem State.ite_startReq (c : Prop) [Decidable c] (t : State) :
    (if c then s else t).startReq = if c then s.startReq else t.startReq := by split <;> rfl

/-! ### the host's actions -/

theorem State.hostMayAct_iff : s.hostMayAct = true ↔ s.ph = .idle ∨ s.ph = .done := by
  simp [State.hostMayAct]

theorem State.hostFree_iff : s.hostFree = true ↔ (s.ph = .idle ∨ s.ph = .done) ∧ s.startReq = false := by
  simp [State.hostFree, State.hostMayAct]

theorem State.hostWriteInput_ignored (a : Nat) (b : Byte) (h : s.hostFree = false) : s.hostWriteInput a b = s := by
  simp [State.hostWriteInput, h]
theorem State.hostWriteLen_ignored (n : Nat) (h : s.hostFree = false) : s.hostWriteLen n = s := by
  simp [State.hostWriteLen, h]
theorem State.hostLoad_ignored (bs : List Byte) (h : s.hostFree = false) : s.hostLoad bs = s := by
  simp [State.hostLoad, h]
theorem State.hostStart_ignored (h : s.hostFree = false) : s.hostStart = s := by
  simp [State.hostStart, h]

end Sys2Proof.Machine
end

