-- ==== Sys2Proof/Laws/Operands.lean ====
section
/-! SUPPORT. One lemma for each shared read: what it can answer, and when it answers. -/

namespace Sys2Proof.Machine

variable {s : State}

/-! ### The input space -/

@[simp] theorem State.inputBytes_length (s : State) : s.inputBytes.length = s.len := by
  simp [State.inputBytes]

/-- Reading `IN` is indexing the input bytes (R10, R40). -/
theorem State.inByte_eq (s : State) (a : Nat) : s.inByte a = s.inputBytes[a]? := by
  by_cases h : a < s.len
  · simp [State.inByte, State.inputBytes, h]
  · simp [State.inByte, State.inputBytes, h]

theorem State.inByte_of_lt {a : Nat} (h : a < s.len) : s.inByte a = some (s.inputBytes.getD a 0) := by
  have hl : a < s.inputBytes.length := by simpa using h
  simp [State.inByte_eq, List.getElem?_eq_getElem hl]

/-- FETCH (R85) answers wherever the guard of R83 lets it be asked, and gives the window's code. -/
theorem State.fetchCode_of_guard (hcb : s.cb < s.len) (h : s.bc + 9 ≤ 8 * s.chunkLen) :
    s.fetchCode = some (codeWindow (s.inputBytes.getD (s.cb + s.bc / 8) 0)
      (s.inputBytes.getD (s.cb + s.bc / 8 + 1) 0) (s.bc % 8)) := by
  simp only [State.chunkLen, Config.chunk] at h
  have h1 : s.cb + s.bc / 8 < s.len := by omega
  have h2 : s.cb + s.bc / 8 + 1 < s.len := by omega
  simp only [State.fetchCode, State.byteIndex, State.bitOffset, State.inByte_of_lt h1, State.inByte_of_lt h2]

/-! ### The stream space -/

theorem State.streamByte_some {a : Nat} {b : Byte} :
    s.streamByte a = some b ↔ a < s.sl ∧ s.stream.read a = some b := by
  by_cases h : a < s.sl <;> simp [State.streamByte, h]

/-- An address outside `S` (R51): at or above `SL`, or never appended to. -/
theorem State.streamByte_none {a : Nat} : s.streamByte a = none ↔ s.sl ≤ a ∨ s.stream.read a = none := by
  by_cases h : a < s.sl
  · simp [State.streamByte, h, show ¬ s.sl ≤ a by omega]
  · simp [State.streamByte, h, show s.sl ≤ a by omega]

/-- A read of `n` stream bytes answers exactly the bytes at those addresses, all of which exist. -/
theorem State.streamBytes_some {n a : Nat} {w : List Byte} :
    s.streamBytes a n = some w ↔ w.length = n ∧ ∀ i, i < n → s.streamByte (a + i) = w[i]? := by
  induction n generalizing a w with
  | zero => cases w <;> simp [State.streamBytes]
  | succ n ih =>
    unfold State.streamBytes
    cases hb : s.streamByte a with
    | none =>
      simp only [reduceCtorEq, false_iff, not_and]
      intro hl hi
      have := hi 0 (by omega)
      rw [Nat.add_zero, hb, List.getElem?_eq_getElem (by omega)] at this
      cases this
    | some b =>
      cases w with
      | nil => simp
      | cons c w =>
        simp only [Option.map_eq_some_iff, List.cons.injEq, List.length_cons, Nat.add_right_cancel_iff]
        constructor
        · rintro ⟨v, hv, rfl, rfl⟩
          refine ⟨(ih.1 hv).1, fun i hi => ?_⟩
          cases i with
          | zero => simpa using hb
          | succ i =>
            rw [show a + (i + 1) = a + 1 + i by omega]
            simpa using (ih.1 hv).2 i (by omega)
        · rintro ⟨hl, hi⟩
          refine ⟨w, ih.2 ⟨hl, fun i h => ?_⟩, ?_, rfl⟩
          · rw [show a + 1 + i = a + (i + 1) by omega]
            simpa using hi (i + 1) (by omega)
          · have := hi 0 (by omega)
            rw [Nat.add_zero, hb] at this
            simpa using this

/-- A read of stream bytes answers nothing exactly when one of them does not exist (R51). -/
theorem State.streamBytes_none {n a : Nat} :
    s.streamBytes a n = none ↔ ∃ i, i < n ∧ s.streamByte (a + i) = none := by
  induction n generalizing a with
  | zero => simp [State.streamBytes]
  | succ n ih =>
    unfold State.streamBytes
    cases hb : s.streamByte a with
    | none => simpa using ⟨0, by omega, hb⟩
    | some b =>
      simp only [Option.map_eq_none_iff, ih]
      constructor
      · rintro ⟨i, hi, h⟩
        exact ⟨i + 1, by omega, by rwa [show a + (i + 1) = a + 1 + i by omega]⟩
      · rintro ⟨i, hi, h⟩
        cases i with
        | zero => rw [Nat.add_zero, hb] at h; cases h
        | succ i => exact ⟨i, by omega, by rwa [show a + 1 + i = a + (i + 1) by omega]⟩

/-- The record window (R51, R68): 32 bytes, byte `o` the stream byte at `RI + o`. -/
theorem State.fetchRecord_some {w : List Byte} (h : s.fetchRecord = some w) :
    w.length = 32 ∧ ∀ o, o < 32 → s.ri + o < s.sl ∧ s.stream.read (s.ri + o) = some (recordByte w o) := by
  obtain ⟨hl, hi⟩ := State.streamBytes_some.1 h
  refine ⟨hl, fun o ho => State.streamByte_some.1 ?_⟩
  rw [hi o ho, recordByte]
  simp [List.getElem?_eq_getElem (show o < w.length by simpa [hl] using ho)]

/-- There is no record window exactly when one of its 32 bytes does not exist (R51, R111). -/
theorem State.fetchRecord_none :
    s.fetchRecord = none ↔ ∃ o, o < 32 ∧ (s.sl ≤ s.ri + o ∨ s.stream.read (s.ri + o) = none) := by
  simp only [State.fetchRecord, State.streamBytes_none, State.streamByte_none, Config.recordLen]

/-- A full window is fetched from a stream with no hole (R111). -/
theorem State.fetchRecord_exists (hf : s.stream.map Prod.fst = List.range s.sl)
    (h : s.ri + 31 < s.sl) : ∃ w, s.fetchRecord = some w := by
  cases hw : s.fetchRecord with
  | some w => exact ⟨w, rfl⟩
  | none =>
    obtain ⟨o, ho, hn⟩ := State.fetchRecord_none.1 hw
    obtain ⟨b, hb⟩ := Memory.read_full hf (a := s.ri + o) (by omega)
    rw [hb] at hn
    simp only [reduceCtorEq, or_false] at hn
    omega

/-- The operands of XORB (R100): both bytes exist, `XI` is at least 32, and they are those bytes. -/
theorem State.xorOperands_some {a b : Byte} :
    s.xorOperands = some (a, b) ↔
      32 ≤ s.xi ∧ s.xi < s.sl ∧ s.stream.read s.xi = some a ∧ s.stream.read (s.xi - 32) = some b := by
  by_cases h : s.xi < 32
  · simp [State.xorOperands, Config.xwin, h]
  · simp only [State.xorOperands, Config.xwin, h, if_false]
    cases h1 : s.streamByte s.xi with
    | none =>
      simp only [reduceCtorEq, false_iff]
      rintro ⟨-, h3, h4, -⟩
      rw [State.streamByte_some.2 ⟨h3, h4⟩] at h1; cases h1
    | some x =>
      obtain ⟨hx1, hx2⟩ := State.streamByte_some.1 h1
      cases h2 : s.streamByte (s.xi - 32) with
      | none =>
        simp only [reduceCtorEq, false_iff]
        rintro ⟨-, -, -, h5⟩
        rw [State.streamByte_some.2 ⟨by omega, h5⟩] at h2; cases h2
      | some y =>
        obtain ⟨-, hy2⟩ := State.streamByte_some.1 h2
        simp only [Option.some.injEq, Prod.mk.injEq, hx2, hy2]
        exact ⟨fun e => ⟨by omega, hx1, e⟩, fun e => e.2.2⟩

/-- XORB lacks an operand exactly when R51's guard `32 <= XI < SL` fails or a byte was never appended. -/
theorem State.xorOperands_none :
    s.xorOperands = none ↔
      s.xi < 32 ∨ s.sl ≤ s.xi ∨ s.stream.read s.xi = none ∨ s.stream.read (s.xi - 32) = none := by
  cases h : s.xorOperands with
  | some p =>
    obtain ⟨h1, h2, h3, h4⟩ := State.xorOperands_some.1 h
    simp [h3, h4]; omega
  | none =>
    simp only [true_iff]
    by_contra hn
    simp only [not_or, Nat.not_lt, Nat.not_le, ← ne_eq, Option.ne_none_iff_exists'] at hn
    obtain ⟨h1, h2, ⟨a, ha⟩, b, hb⟩ := hn
    rw [State.xorOperands_some.2 ⟨h1, h2, ha, hb⟩] at h; cases h

/-- Both operands exist in a stream with no hole, where R51's guard holds. -/
theorem State.xorOperands_exist (hf : s.stream.map Prod.fst = List.range s.sl) (h32 : 32 ≤ s.xi)
    (h : s.xi < s.sl) : ∃ a b, s.xorOperands = some (a, b) := by
  obtain ⟨a, ha⟩ := Memory.read_full hf h
  obtain ⟨b, hb⟩ := Memory.read_full hf (a := s.xi - 32) (by omega)
  exact ⟨a, b, State.xorOperands_some.2 ⟨h32, h, ha, hb⟩⟩

end Sys2Proof.Machine
end

