-- ==== Sys2Proof/Laws/PerInstr.lean ====
section
/-! SUPPORT. The family EncodedShape: each instruction is encoded in the format its row of the opcode table
gives (R60, R68, R74). One lemma per constructor. -/

namespace Sys2Proof.Laws.EncodedShape

/-- A C9 row has a packed code, an R4, R9 or R0 row a record of 32 bytes, an OP row no encoding. -/
def Statement (i : Instr) : Prop :=
  match encode i with
  | some (.code _) => i.format = .c9
  | some (.record w) => (i.format = .r4 ∨ i.format = .r9 ∨ i.format = .r0) ∧ w.length = 32
  | none => i.format = .op

theorem endBlock : Statement .endBlock := rfl

theorem zrun (n : Byte) : Statement (.zrun n) := rfl

theorem lit (b : Byte) : Statement (.lit b) := rfl

theorem open4 (ver mode : Byte) : Statement (.open4 ver mode) := ⟨.inl rfl, makeRecord_length _ _⟩

theorem open9 (lat lon : Raw) : Statement (.open9 lat lon) := ⟨.inr (.inl rfl), makeRecord_length _ _⟩

theorem close9 (lat lon : Raw) : Statement (.close9 lat lon) := ⟨.inr (.inl rfl), makeRecord_length _ _⟩

theorem skip (ty : Byte) : Statement (.skip ty) := ⟨.inr (.inr rfl), makeRecord_length _ _⟩

theorem xorb : Statement .xorb := rfl

theorem start : Statement .start := rfl

theorem finalize : Statement .finalize := rfl

end Sys2Proof.Laws.EncodedShape
end

