-- ==== Sys2Proof/Laws/Step.lean ====
section
/-! SUPPORT. What one step can do, once: the phases' choices, the effect of each meaning, and the inversion
lemma from which every invariant follows without unfolding the step again. -/

namespace Sys2Proof.Machine

variable {s t : State}

/-! ### The effect of each meaning -/

theorem exec_endBlock (s : State) : exec .endBlock s = .next s.nextChunk := rfl

theorem exec_zrun (n : Byte) (s : State) :
    exec (.zrun n) s = .next (s.appendStream (List.replicate n.toNat 0)).advanceCursor := rfl

theorem exec_lit (b : Byte) (s : State) : exec (.lit b) s = .next (s.appendStream [b]).advanceCursor := rfl

theorem exec_open4 (ver mode : Byte) (s : State) :
    exec (.open4 ver mode) s = .next (if 7 ≤ ver.toNat then s.captureMode mode else s).nextRecord := by
  simp [exec, execOpen4, gateOpen]

theorem exec_open9 (lat lon : Raw) (s : State) :
    exec (.open9 lat lon) s =
      .next (if Fix.isSentinel ⟨lat, lon⟩ then s else s.captureEntry ⟨lat, lon⟩).nextRecord := rfl

theorem exec_close9 (lat lon : Raw) (s : State) :
    exec (.close9 lat lon) s =
      .next (if Fix.isSentinel ⟨lat, lon⟩ then s else s.captureExit ⟨lat, lon⟩).nextRecord := rfl

theorem exec_skip (ty : Byte) (s : State) : exec (.skip ty) s = .next s.nextRecord := rfl

theorem exec_finalize (s : State) : exec .finalize s = .next (s.finish (policy s.mode s.entry s.exit)) := rfl

theorem exec_start (s : State) : exec .start s = .next (if s.hostMayAct then s.started else s) := rfl

/-- XORB where both operands exist. -/
theorem exec_xorb_of_operands {a b : Byte} (h : s.xorOperands = some (a, b)) :
    exec .xorb s = .next (s.storeStream s.xi (a ^^^ b)).nextXorIndex := by
  simp [exec, execXorb, h]

/-- XORB where an operand does not exist ends the phase (R51). -/
theorem exec_xorb_of_none (h : s.xorOperands = none) : exec .xorb s = .next (s.setPhase .scan) := by
  simp [exec, execXorb, h]

/-- A record's meaning captures at most one register and moves to the next window (R112, R24). -/
theorem exec_decodeRecord (w : List Byte) (s : State) :
    ∃ u, exec (decodeRecord w) s = .next u.nextRecord ∧
      (u = s ∨ (∃ m, u = s.captureMode m) ∨ (∃ f, f.isSentinel = false ∧ u = s.captureEntry f) ∨
        ∃ f, f.isSentinel = false ∧ u = s.captureExit f) := by
  unfold decodeRecord
  split
  · refine ⟨_, exec_open4 _ _ _, ?_⟩
    split
    · exact .inr (.inl ⟨_, rfl⟩)
    · exact .inl rfl
  · split
    · refine ⟨_, exec_open9 _ _ _, ?_⟩
      split
      · exact .inl rfl
      · rename_i h; exact .inr (.inr (.inl ⟨_, by simpa using h, rfl⟩))
    · split
      · refine ⟨_, exec_close9 _ _ _, ?_⟩
        split
        · exact .inl rfl
        · rename_i h; exact .inr (.inr (.inr ⟨_, by simpa using h, rfl⟩))
      · exact ⟨_, exec_skip _ _, .inl rfl⟩

/-! ### The choices of the phases -/

theorem nextAction_host (h : s.hostMayAct = true) : s.nextAction = s.hostAction := by
  rcases (State.hostMayAct_iff s).1 h with h | h <;> simp [State.nextAction, h]

theorem nextAction_dec (h : s.ph = .dec) : s.nextAction = s.decAction := by
  simp [State.nextAction, h]

theorem nextAction_xor (h : s.ph = .xor) : s.nextAction = s.xorAction := by
  simp [State.nextAction, h]

theorem nextAction_scan (h : s.ph = .scan) : s.nextAction = s.scanAction := by
  simp [State.nextAction, h]

/-- The code under the cursor, as DEC fetches it (R85). -/
abbrev State.cursorCode (s : State) : Code :=
  codeWindow (s.inputBytes.getD (s.cb + s.bc / 8) 0) (s.inputBytes.getD (s.cb + s.bc / 8 + 1) 0) (s.bc % 8)

/-! ### The steps, phase by phase -/

theorem step_wait (h : s.hostMayAct = true) (hr : s.startReq = false) : step s = .next s := by
  simp [step, nextAction_host h, State.hostAction, hr, Move.apply]

theorem step_start (h : s.hostMayAct = true) (hr : s.startReq = true) : step s = .next s.started := by
  simp [step, nextAction_host h, State.hostAction, hr, exec_start, h]

theorem step_leaveDec (h : s.ph = .dec) (hc : s.len ≤ s.cb) : step s = .next (s.setPhase .xor) := by
  simp [step, nextAction_dec h, State.decAction, hc, Move.apply]

theorem step_exhaust (h : s.ph = .dec) (hc : s.cb < s.len) (hb : 8 * s.chunkLen < s.bc + 9) :
    step s = .next s.nextChunk := by
  simp [step, nextAction_dec h, State.decAction, show ¬ s.len ≤ s.cb by omega, hb, Move.apply]

/-- A DEC step with a whole code left performs the decoded code (R80, R83). -/
theorem step_code (h : s.ph = .dec) (hc : s.cb < s.len) (hb : s.bc + 9 ≤ 8 * s.chunkLen) :
    step s = exec (decodeCode s.cursorCode) s := by
  simp [step, nextAction_dec h, State.decAction, show ¬ s.len ≤ s.cb by omega,
    show ¬ 8 * s.chunkLen < s.bc + 9 by omega, State.fetchCode_of_guard hc hb,
    State.cursorCode]

theorem step_xorb (h : s.ph = .xor) (hx : s.xi < s.sl) : step s = exec .xorb s := by
  simp [step, nextAction_xor h, State.xorAction, hx]

theorem step_leaveXor (h : s.ph = .xor) (hx : s.sl ≤ s.xi) : step s = .next (s.setPhase .scan) := by
  simp [step, nextAction_xor h, State.xorAction, show ¬ s.xi < s.sl by omega, Move.apply]

theorem step_gate (h : s.ph = .scan) (hl : s.sl < 64) : step s = .next (s.finish none) := by
  simp [step, nextAction_scan h, State.scanAction, hl, Move.apply]

/-- A SCAN step with a full window performs the decoded record (R111, R112). -/
theorem step_record (h : s.ph = .scan) (hl : 64 ≤ s.sl) (hr : s.ri + 31 < s.sl) {w : List Byte}
    (hw : s.fetchRecord = some w) : step s = exec (decodeRecord w) s := by
  simp [step, nextAction_scan h, State.scanAction, show ¬ s.sl < 64 by omega, hr, hw]

/-- With no window to read, at the end of the stream or because a byte of it does not exist, the SCAN step is
FINALIZE (R51, R112). -/
theorem step_finalize_of_none (h : s.ph = .scan) (hl : 64 ≤ s.sl) (hw : s.fetchRecord = none) :
    step s = exec .finalize s := by
  simp [step, nextAction_scan h, State.scanAction, show ¬ s.sl < 64 by omega, hw]

theorem step_finalize (h : s.ph = .scan) (hl : 64 ≤ s.sl) (hr : s.sl ≤ s.ri + 31) :
    step s = exec .finalize s :=
  step_finalize_of_none h hl (State.fetchRecord_none.2 ⟨31, by omega, .inl hr⟩)

/-! ### Inversion -/

/-- Everything a step can do, guards included. -/
inductive StepTo (s : State) : State → Prop
  | wait (h : s.hostMayAct = true) (hr : s.startReq = false) : StepTo s s
  | start (h : s.hostMayAct = true) (hr : s.startReq = true) : StepTo s s.started
  | leaveDec (h : s.ph = .dec) (hc : s.len ≤ s.cb) : StepTo s (s.setPhase .xor)
  | exhaust (h : s.ph = .dec) (hc : s.cb < s.len) (hb : 8 * s.chunkLen < s.bc + 9) : StepTo s s.nextChunk
  | endBlock (h : s.ph = .dec) (hc : s.cb < s.len) (hb : s.bc + 9 ≤ 8 * s.chunkLen)
      (hi : decodeCode s.cursorCode = .endBlock) : StepTo s s.nextChunk
  | zrun (h : s.ph = .dec) (hc : s.cb < s.len) (hb : s.bc + 9 ≤ 8 * s.chunkLen) (n : Byte)
      (hi : decodeCode s.cursorCode = .zrun n) :
      StepTo s (s.appendStream (List.replicate n.toNat 0)).advanceCursor
  | lit (h : s.ph = .dec) (hc : s.cb < s.len) (hb : s.bc + 9 ≤ 8 * s.chunkLen) (b : Byte)
      (hi : decodeCode s.cursorCode = .lit b) : StepTo s (s.appendStream [b]).advanceCursor
  | xorb (h : s.ph = .xor) (hx : s.xi < s.sl) (h32 : 32 ≤ s.xi) (a b : Byte)
      (ha : s.stream.read s.xi = some a) (hb : s.stream.read (s.xi - 32) = some b) :
      StepTo s (s.storeStream s.xi (a ^^^ b)).nextXorIndex
  | leaveXor (h : s.ph = .xor) (hx : s.xorOperands = none) : StepTo s (s.setPhase .scan)
  | gate (h : s.ph = .scan) (hl : s.sl < 64) : StepTo s (s.finish none)
  | record (h : s.ph = .scan) (hl : 64 ≤ s.sl) (hr : s.ri + 31 < s.sl) (w : List Byte)
      (hw : s.fetchRecord = some w) (u : State) (he : exec (decodeRecord w) s = .next u.nextRecord)
      (hu : u = s ∨ (∃ m, u = s.captureMode m) ∨ (∃ f, f.isSentinel = false ∧ u = s.captureEntry f) ∨
        ∃ f, f.isSentinel = false ∧ u = s.captureExit f) : StepTo s u.nextRecord
  | finalize (h : s.ph = .scan) (hl : 64 ≤ s.sl) (hw : s.fetchRecord = none) :
      StepTo s (s.finish (policy s.mode s.entry s.exit))

/-- The class of the decoded code (R64): END, a run or a literal. -/
theorem decodeCode_cases (c : Code) :
    decodeCode c = .endBlock ∨ (∃ n, n ≠ 0 ∧ decodeCode c = .zrun n) ∨ ∃ b, decodeCode c = .lit b := by
  by_cases h : c = 0
  · exact .inl (by simp [decodeCode, h])
  · by_cases h8 : c.getLsbD 8 = false
    · refine .inr (.inl ⟨codePayload c, ?_, by rw [decodeCode, if_neg h, if_pos h8]⟩)
      intro hp
      apply h
      apply BitVec.eq_of_getLsbD_eq
      intro i hi
      by_cases h' : i = 8
      · subst h'; simpa using h8
      · have := congrArg (fun x => x.getLsbD i) hp
        simpa [codePayload, show i < 8 by omega] using this
    · exact .inr (.inr ⟨codePayload c, by rw [decodeCode, if_neg h, if_neg h8]⟩)

theorem stepTo_of_step (h : step s = .next t) : StepTo s t := by
  have inj : ∀ {u v : State}, (.next u : Out) = .next v → u = v := fun e => by injection e
  cases hp : s.ph with
  | idle | done =>
    have hm : s.hostMayAct = true := by simp [State.hostMayAct, hp]
    cases hr : s.startReq with
    | false => rw [step_wait hm hr] at h; rw [← inj h]; exact .wait hm hr
    | true => rw [step_start hm hr] at h; rw [← inj h]; exact .start hm hr
  | dec =>
    by_cases hc : s.len ≤ s.cb
    · rw [step_leaveDec hp hc] at h; rw [← inj h]; exact .leaveDec hp hc
    · have hc : s.cb < s.len := by omega
      by_cases hb : 8 * s.chunkLen < s.bc + 9
      · rw [step_exhaust hp hc hb] at h; rw [← inj h]; exact .exhaust hp hc hb
      · have hb : s.bc + 9 ≤ 8 * s.chunkLen := by omega
        rw [step_code hp hc hb] at h
        rcases decodeCode_cases s.cursorCode with hi | ⟨n, -, hi⟩ | ⟨b, hi⟩ <;> rw [hi] at h
        · rw [← inj h]; exact .endBlock hp hc hb hi
        · rw [← inj h]; exact .zrun hp hc hb n hi
        · rw [← inj h]; exact .lit hp hc hb b hi
  | xor =>
    by_cases hx : s.xi < s.sl
    · rw [step_xorb hp hx] at h
      cases ho : s.xorOperands with
      | none => rw [exec_xorb_of_none ho] at h; rw [← inj h]; exact .leaveXor hp ho
      | some p =>
        rw [exec_xorb_of_operands ho] at h
        obtain ⟨h32, -, ha, hb⟩ := State.xorOperands_some.1 ho
        rw [← inj h]; exact .xorb hp hx h32 p.1 p.2 ha hb
    · rw [step_leaveXor hp (by omega)] at h; rw [← inj h]
      exact .leaveXor hp (State.xorOperands_none.2 (.inr (.inl (by omega))))
  | scan =>
    by_cases hl : s.sl < 64
    · rw [step_gate hp hl] at h; rw [← inj h]; exact .gate hp hl
    · have hl : 64 ≤ s.sl := by omega
      cases hw : s.fetchRecord with
      | none => rw [step_finalize_of_none hp hl hw] at h; rw [← inj h]; exact .finalize hp hl hw
      | some w =>
        have hr : s.ri + 31 < s.sl := ((State.fetchRecord_some hw).2 31 (by omega)).1
        rw [step_record hp hl hr hw] at h
        obtain ⟨u, hu, hcases⟩ := exec_decodeRecord w s
        rw [hu] at h; rw [← inj h]
        exact .record hp hl hr w hw u hu hcases

/-! ### Runs -/

theorem run_zero (s : State) : Host.Core.run core 0 s = .next s := rfl

theorem run_succ {k : Nat} (h : step s = .next t) :
    Host.Core.run core (k + 1) s = Host.Core.run core k t := by
  have h' : core.step s = .next t := h
  simp only [Host.Core.run, h']

/-- Runs compose: `j` steps to `t`, then `k` more. -/
theorem run_add {j k : Nat} (h : Host.Core.run core j s = .next t) :
    Host.Core.run core (j + k) s = Host.Core.run core k t := by
  induction j generalizing s with
  | zero => rw [run_zero] at h; injection h with h; rw [← h, Nat.zero_add]
  | succ j ih =>
    cases hs : step s with
    | next u =>
      rw [run_succ hs] at h
      rw [show j + 1 + k = j + k + 1 by omega, run_succ hs]
      exact ih h
    | fault r =>
      have hs' : core.step s = .fault r := hs
      simp only [Host.Core.run, hs'] at h
      cases h
    | refused r =>
      have hs' : core.step s = .refused r := hs
      simp only [Host.Core.run, hs'] at h
      cases h

end Sys2Proof.Machine
end

