-- ==== Sys2Proof/Tests/Slice0.lean ====
section
/-! SUPPORT. The model's own tests, expected results from spec/95_test_vectors.md or by hand from the rules, and
for every statement with hypotheses a witness that they can be met together. -/

set_option Elab.async false

namespace Sys2Proof.Tests
open Sys2Proof Sys2Proof.Machine

/-! ### Small states -/

/-- Phase DEC at the start of a run on `bs`. -/
def inDec (bs : List Byte) : State :=
  { State.reset with ph := .dec, inp := Memory.ofBytes bs, len := bs.length }

/-- Phase XOR with the pre-XOR stream `bs`. -/
def inXor (bs : List Byte) : State :=
  { State.reset with ph := .xor, stream := Memory.ofBytes bs, sl := bs.length }

/-- Phase SCAN with the stream `bs`. -/
def inScan (bs : List Byte) : State :=
  { State.reset with ph := .scan, stream := Memory.ofBytes bs, sl := bs.length, xi := max 32 bs.length }

/-- Does the outcome answer a next state with the property `p`? -/
def nextHas (o : Out) (p : State → Bool) : Bool :=
  match o with
  | .next t => p t
  | .fault _ => false
  | .refused _ => false

/-- The record of an instruction, its unnamed bytes zero (R75). -/
def recordOf (i : Instr) : List Byte :=
  match encode i with
  | some (.record w) => w
  | some (.code _) => []
  | none => []

/-- The raw pairs A and B of 95_test_vectors.md. -/
def latA : Raw := BitVec.ofInt 32 4027500
def lonA : Raw := BitVec.ofInt 32 (-7412345)
def latB : Raw := BitVec.ofInt 32 (-3385000)
def lonB : Raw := BitVec.ofInt 32 15120000

/-! ### WellFormed: an ill-formed term for each check -/

theorem test_wf_refuses_empty_run : ¬ WellFormed (.zrun 0) := by decide
theorem test_wf_refuses_known_types :
    ¬ WellFormed (.skip 0x14) ∧ ¬ WellFormed (.skip 0x19) ∧ ¬ WellFormed (.skip 0x29) := by decide
theorem test_wf_allows : WellFormed (.zrun 1) ∧ WellFormed (.skip 0x24) := by decide

/-! ### Decoding words written out from the spec's encodings (R64, R69 to R72) -/

theorem test_decode_end : decodeCode 0b000000000 = .endBlock := by decide
theorem test_decode_zrun : decodeCode 0b011111111 = .zrun 255 := by decide
theorem test_decode_lit : decodeCode 0b100000001 = .lit 0x01 := by decide
theorem test_decode_lit_zero : decodeCode 0b100000000 = .lit 0x00 := by decide

/-- Vector B4: four codes at bit offsets 0 to 3. -/
theorem test_decode_b4 :
    decodeCodeBytes [0x80, 0x81] 0 = .ok (.lit 0x01) ∧ decodeCodeBytes [0x81, 0x7F] 1 = .ok (.zrun 5) ∧
    decodeCodeBytes [0x7F, 0xE0] 2 = .ok (.lit 0xFF) ∧ decodeCodeBytes [0xE0, 0x00] 3 = .ok .endBlock := by
  decide

/-- Vector B5: bit offsets 4 to 7. -/
theorem test_decode_b5 :
    decodeCodeBytes [0x00, 0x0E] 4 = .ok (.zrun 1) ∧ decodeCodeBytes [0x0E, 0x01] 5 = .ok (.lit 0x80) ∧
    decodeCodeBytes [0x01, 0xFF] 6 = .ok (.zrun 255) ∧ decodeCodeBytes [0xFF, 0x55] 7 = .ok (.lit 0x55) := by
  decide

theorem test_decode_rejects :
    decodeCodeBytes [0xFF] 0 = .error .shortWindow ∧ decodeCodeBytes [0, 0] 8 = .error .badOffset ∧
    decode (.record [0x14]) = .error .notARecord := by decide

/-- Program P2's records, their bytes written out. -/
theorem test_decode_open4 :
    decode (.record [0x14, 0, 0, 0, 0, 0, 0, 0, 0, 0, 0, 0, 0, 0, 0, 0,
      0x07, 0, 0, 0, 0, 0, 0, 0, 0, 0, 0, 0, 0x06, 0, 0, 0]) = .ok (.open4 7 6) := by decide +kernel
theorem test_decode_open9 :
    decode (.record [0x19, 0, 0, 0, 0, 0, 0, 0, 0, 0, 0, 0, 0, 0, 0, 0, 0, 0, 0, 0, 0,
      0x00, 0x3D, 0x74, 0x6C, 0xFF, 0x8E, 0xE5, 0x87, 0, 0, 0]) = .ok (.open9 latA lonA) := by decide +kernel
theorem test_decode_close9 :
    decode (.record [0x29, 0, 0, 0, 0, 0, 0, 0, 0, 0, 0, 0, 0, 0, 0, 0, 0, 0, 0, 0, 0,
      0xFF, 0xCC, 0x59, 0x58, 0x00, 0xE6, 0xB6, 0x80, 0, 0, 0]) = .ok (.close9 latB lonB) := by decide +kernel
theorem test_decode_skip : decode (.record (0x24 :: List.replicate 31 0)) = .ok (.skip 0x24) := by
  decide +kernel

/-- The packing convention (R76) on the codes of program P1. -/
theorem test_pack_p1 : packCodes [0x101, 0x005, 0x1FF, 0x000] = [0x80, 0x81, 0x7F, 0xE0, 0x00] := by
  decide +kernel

/-! ### One step each -/

/-- P1, step 1: LIT at the first cursor. -/
theorem test_step_lit :
    nextHas (step (inDec [0x80, 0x81, 0x7F, 0xE0, 0x00]))
      (fun t => t.stream = [(0, 0x01)] && t.sl = 1 && t.bc = 9 && t.ph = .dec) = true := by decide +kernel

/-- P1, step 2: ZRUN at cursor 9. -/
theorem test_step_zrun :
    nextHas (step { inDec [0x80, 0x81, 0x7F, 0xE0, 0x00] with bc := 9, stream := [(0, 0x01)], sl := 1 })
      (fun t => t.stream = Memory.ofBytes [0x01, 0, 0, 0, 0, 0] && t.sl = 6 && t.bc = 18) = true := by
  decide +kernel

/-- P1, step 4: END; the next chunk begins at its bit 0. -/
theorem test_step_end :
    nextHas (step { inDec [0x80, 0x81, 0x7F, 0xE0, 0x00] with bc := 27 })
      (fun t => t.cb = 144 && t.bc = 0 && t.sl = 0) = true := by decide +kernel

/-- Vector B7: a chunk of one byte holds no code. -/
theorem test_step_exhaust :
    nextHas (step (inDec [0xFF])) (fun t => t.cb = 144 && t.bc = 0 && t.sl = 0 && t.ph = .dec) = true := by
  decide +kernel

/-- P1, step 5: no chunk left. -/
theorem test_step_leave_dec :
    nextHas (step { inDec [0, 0] with cb := 144 }) (fun t => t.ph = .xor) = true := by decide +kernel

/-- Vector X3 at index 64: the partner byte is the one unit 2 has rewritten (02), not the original (03). -/
theorem test_step_xorb :
    nextHas (step { inXor (0x01 :: List.replicate 31 0 ++ 0x02 :: List.replicate 31 0 ++ 0x07 :: List.replicate 31 0)
        with xi := 64 })
      (fun t => t.streamByte 64 = some 0x05 && t.streamByte 32 = some 0x02 && t.xi = 65) = true := by
  decide +kernel

/-- R101: a stream of 32 bytes is left as it is. -/
theorem test_step_leave_xor :
    nextHas (step (inXor (List.replicate 32 7))) (fun t => t.ph = .scan && t.stream = Memory.ofBytes (List.replicate 32 7))
      = true := by decide +kernel

/-- Vector Q1: the length gate at 63 bytes. -/
theorem test_step_gate :
    nextHas (step (inScan (List.replicate 63 0x14))) (fun t => t.ph = .done && t.res = none && t.mode = none)
      = true := by decide +kernel

/-- Vectors Q2 and Q3: the version gate at 7 and at 6. -/
theorem test_step_open4 :
    nextHas (step (inScan (recordOf (.open4 7 6) ++ recordOf (.skip 0)))) (fun t => t.mode = some 6 && t.ri = 32)
      = true := by decide +kernel
theorem test_step_open4_closed :
    nextHas (step { inScan (recordOf (.open4 6 5) ++ recordOf (.skip 0)) with mode := some 6 })
      (fun t => t.mode = some 6 && t.ri = 32) = true := by decide +kernel

/-- Vectors Q2 and Q13: a fix is captured; a later sentinel does not erase it. -/
theorem test_step_open9 :
    nextHas (step { inScan (recordOf (.skip 0) ++ recordOf (.open9 latA lonA)) with ri := 32 })
      (fun t => t.entry = some ⟨latA, lonA⟩ && t.exit = none && t.ri = 64) = true := by decide +kernel
theorem test_step_open9_sentinel :
    nextHas (step { inScan (recordOf (.open9 (-1) (-1)) ++ recordOf (.skip 0)) with entry := some ⟨latA, lonA⟩ })
      (fun t => t.entry = some ⟨latA, lonA⟩ && t.ri = 32) = true := by decide +kernel

/-- Vectors Q20 and Q12: an exit fix; a mixed pair is a fix. -/
theorem test_step_close9 :
    nextHas (step (inScan (recordOf (.close9 latB lonB) ++ recordOf (.skip 0))))
      (fun t => t.exit = some ⟨latB, lonB⟩ && t.entry = none && t.ri = 32) = true := by decide +kernel
theorem test_step_close9_mixed :
    nextHas (step (inScan (recordOf (.close9 0 (-1)) ++ recordOf (.skip 0))))
      (fun t => t.exit = some ⟨0, -1⟩) = true := by decide +kernel

/-- Vector Q23: type 0x24 with version 7 and mode 6 is no mode record. -/
theorem test_step_skip :
    nextHas (step (inScan (makeRecord 0x24 [(16, 7), (28, 6)] ++ recordOf (.skip 0))))
      (fun t => t.mode = none && t.ri = 32) = true := by decide +kernel

/-- Vectors Q20 and Q22: the policy at FINALIZE. -/
theorem test_step_finalize :
    nextHas (step { inScan (List.replicate 64 0) with
        ri := 64, mode := some 6, entry := some ⟨latA, lonA⟩, exit := some ⟨latB, lonB⟩ })
      (fun t => t.res = some ⟨⟨latA, lonA⟩, some ⟨latB, lonB⟩⟩ && t.ph = .done) = true := by decide +kernel
theorem test_step_finalize_no_mode :
    nextHas (step { inScan (List.replicate 64 0) with ri := 64, entry := some ⟨latA, lonA⟩ })
      (fun t => t.res = none && t.ph = .done) = true := by decide +kernel

/-- R161: START after a finished run. -/
theorem test_step_start :
    nextHas (step { inScan [1, 2] with ph := .done, mode := some 6, cb := 144, startReq := true, len := 9 })
      (fun t => t = { State.reset with ph := .dec, len := 9 }) = true := by decide +kernel

/-- The model waits at IDLE until the host performs START. -/
theorem test_step_wait : nextHas (step State.reset) (fun t => t = State.reset) = true := by decide +kernel

/-- Table words as the host lays them out: the rows' match values. -/
theorem test_table_words :
    decodeTableWord 16 0x000 = some .endBlock ∧ decodeTableWord 16 0x005 = some (.zrun 5) ∧
    decodeTableWord 16 0x100 = some (.lit 0) ∧ decodeTableWord 8 0x14 = some (.open4 0 0) ∧
    decodeTableWord 8 0x19 = some (.open9 0 0) ∧ decodeTableWord 8 0x29 = some (.close9 0 0) ∧
    decodeTableWord 8 0x00 = some (.skip 0) := by decide +kernel

theorem test_placed_word :
    nextHas (step (State.reset.withFetchWord 16 0x1A5)) (fun t => t.stream = [(0, 0xA5)] && t.bc = 9) = true := by
  decide +kernel

/-! ### The functions on the spec's vectors -/

/-- Vectors B4, B6b, B10, B11a. -/
theorem test_block_decode :
    blockDecode [0x80, 0x81, 0x7F, 0xE0, 0x00] = [0x01, 0, 0, 0, 0, 0, 0xFF] ∧
    blockDecode [0xD5, 0xF3, 0x7F] = [0xAB, 0xCD] ∧ blockDecode [0x00, 0x7F, 0xFF, 0xFF] = [] ∧
    blockDecode [0x80, 0x00] = [0x00] := by decide +kernel

/-- Vector X2. -/
theorem test_xorDec : (xorDec (0xAA :: List.replicate 31 0 ++ [0x55])).getD 32 0 = 0xFF := by decide +kernel

/-- Vectors Q2 and Q16. -/
theorem test_extract :
    extract (recordOf (.open4 7 6) ++ recordOf (.open9 latA lonA)) = some ((4027500, -7412345), none) ∧
    extract (recordOf (.open4 7 6) ++ recordOf (.skip 0) ++ (recordOf (.open9 latA lonA)).take 31) = none := by
  decide +kernel

/-- The scaling table of 95_test_vectors.md section 2.5. -/
theorem test_binary64 :
    binary64 latA = 0x4044233333333333 ∧ binary64 lonA = 0xC05287E69AD42C3D ∧
    binary64 1 = 0x3EE4F8B588E368F1 ∧ binary64 0x80000000 = 0xC0D4F8B588E368F1 := by decide +kernel

/-! ### Witnesses: the hypotheses of each statement can be met -/

theorem witness_encodeThenDecode :
    WellFormed (.zrun 1) ∧ encode (.zrun 1) = some (.code 0b000000001) ∧ encode .xorb = none := by decide +kernel

theorem witness_packedCodes : 0 < [(0x101 : Code)].length ∧ 127 < (List.replicate 128 (0x1FF : Code)).length := by
  decide +kernel

theorem witness_everyCode_boundaries :
    (0 : Code).toNat = 0 ∧ (1 ≤ (1 : Code).toNat ∧ (1 : Code).toNat ≤ 255) ∧
    (1 ≤ (255 : Code).toNat ∧ (255 : Code).toNat ≤ 255) ∧ 256 ≤ (256 : Code).toNat ∧ 256 ≤ (511 : Code).toNat := by
  decide

theorem witness_recordClass :
    (recordOf (.open4 7 6)).length = 32 ∧ (recordOf (.open4 7 6)).getD 0 0 = 0x14 ∧
    (recordOf (.open9 latA lonA)).length = 32 ∧ (recordOf (.open9 latA lonA)).getD 0 0 = 0x19 ∧
    (recordOf (.close9 latA lonA)).length = 32 ∧ (recordOf (.close9 latA lonA)).getD 0 0 = 0x29 ∧
    (recordOf (.skip 0x24)).length = 32 ∧ (recordOf (.skip 0x24)).getD 0 0 = 0x24 := by decide +kernel

/-- Two OPEN4 windows that differ in bytes 1 and 31 only. -/
theorem witness_unreadBytes :
    let w := recordOf (.open4 7 6)
    let v := makeRecord 0x14 [(1, 9), (16, 7), (28, 6), (31, 9)]
    w.length = 32 ∧ v.length = 32 ∧ w.getD 0 0 = v.getD 0 0 ∧ w.getD 16 0 = v.getD 16 0 ∧
      w.getD 28 0 = v.getD 28 0 ∧ w ≠ v := by decide +kernel

/-- Two OPEN9 windows that differ in bytes 20 and 29 only. -/
theorem witness_unreadBytes_fix :
    let w := makeRecord 0x19 [(21, 5), (28, 6)]
    let v := makeRecord 0x19 [(20, 1), (21, 5), (28, 6), (29, 1)]
    w.length = 32 ∧ v.length = 32 ∧ w.getD 0 0 = 0x19 ∧ v.getD 0 0 = 0x19 ∧
      (∀ o, o < 29 → 21 ≤ o → w.getD o 0 = v.getD o 0) ∧ w ≠ v := by decide +kernel

/-- The last code of a full chunk: `BC = 1143`, bytes 142 and 143. -/
theorem witness_stepCode :
    let s := { inDec (List.replicate 144 0xFF) with bc := 1143 }
    s.ph = .dec ∧ s.cb < s.len ∧ s.bc + 9 ≤ 8 * min 144 (s.len - s.cb) ∧
      s.inp.read (s.cb + s.bc / 8) = some 0xFF ∧ s.inp.read (s.cb + s.bc / 8 + 1) = some 0xFF := by
  decide +kernel

/-- The last full record of a 64-byte stream. -/
theorem witness_stepRecord :
    let s := { inScan (List.replicate 64 0x19) with ri := 32 }
    s.ph = .scan ∧ 64 ≤ s.sl ∧ s.ri + 31 < s.sl ∧ (List.replicate 32 (0x19 : Byte)).length = 32 ∧
      ∀ o, o < 32 → s.stream.read (s.ri + o) = some ((List.replicate 32 (0x19 : Byte)).getD o 0) := by
  decide +kernel

theorem witness_phaseOperations :
    ((inXor (List.replicate 33 0)).ph = .xor ∧ (inXor (List.replicate 33 0)).xi < (inXor (List.replicate 33 0)).sl) ∧
    (let s := { inScan (List.replicate 64 0) with ri := 33 }; s.ph = .scan ∧ 64 ≤ s.sl ∧ s.sl ≤ s.ri + 31) ∧
    (let s := { inScan (List.replicate 63 0) with sl := 64, ri := 32 }
     s.ph = .scan ∧ 64 ≤ s.sl ∧ ∃ o, o < 32 ∧ s.stream.read (s.ri + o) = none) ∧
    (State.reset.hostStart.ph = .idle ∧ State.reset.hostStart.startReq = true) := by decide +kernel

theorem witness_exhaust :
    let s := inDec [0xFF]
    s.ph = .dec ∧ s.cb < s.len ∧ 8 * min 144 (s.len - s.cb) < s.bc + 9 := by decide +kernel

/-- A full chunk after its 128th code. -/
theorem witness_exhaust_full :
    let s := { inDec (List.replicate 144 0xFF) with bc := 1152 }
    s.ph = .dec ∧ s.cb < s.len ∧ 8 * min 144 (s.len - s.cb) < s.bc + 9 := by decide +kernel

theorem witness_phaseExits :
    ((inDec []).ph = .dec ∧ (inDec []).len ≤ (inDec []).cb) ∧
    ((inXor (List.replicate 32 0)).ph = .xor ∧ (inXor (List.replicate 32 0)).sl ≤ (inXor (List.replicate 32 0)).xi) := by
  decide +kernel

theorem witness_lengthGate : (inScan (List.replicate 63 0)).ph = .scan ∧ (inScan (List.replicate 63 0)).sl < 64 := by
  decide +kernel

theorem witness_wait :
    (State.reset.ph = .idle ∧ State.reset.startReq = false) ∧
    (let s := { State.reset with ph := .done }; s.ph = .done ∧ s.startReq = false) := by decide

theorem witness_xorb :
    let s := inXor (0x14 :: List.replicate 31 0 ++ [0x0D])
    32 ≤ s.xi ∧ s.xi < s.sl ∧ s.stream.read s.xi = some 0x0D ∧ s.stream.read (s.xi - 32) = some 0x14 := by
  decide +kernel

theorem witness_xorb_outside :
    (let s := { inXor (List.replicate 40 0) with xi := 31 }; s.xi < 32) ∧
    (let s := inXor (List.replicate 32 0); s.sl ≤ s.xi) ∧
    (let s := { inXor (List.replicate 32 0) with sl := 33 }; s.stream.read s.xi = none) ∧
    (let s := { inXor [] with sl := 33, stream := [(32, 1)] }; s.stream.read (s.xi - 32) = none) := by
  decide +kernel

/-- R51, R171: an XORB below index 32 makes no access and ends the phase; so does the scan of a window with a
byte missing. -/
theorem test_no_access_outside :
    nextHas (exec .xorb { inXor (List.replicate 40 1) with xi := 31 })
      (fun t => t.ph = .scan && t.xi = 31 && t.stream = Memory.ofBytes (List.replicate 40 1)) = true ∧
    nextHas (step { inScan (List.replicate 63 0) with sl := 64, ri := 32 }) (fun t => t.ph = .done && t.ri = 32)
      = true := by decide +kernel

/-- R164, log entry 4: between its START and the step that takes it up, the host changes and sees nothing. -/
theorem test_host_waits_after_start :
    let s := { State.reset with ph := .done, res := some ⟨⟨latA, lonA⟩, none⟩ }.hostStart
    s.startReq = true ∧ s.hostWriteInput 0 1 = s ∧ s.hostWriteLen 5 = s ∧ s.hostLoad [1] = s ∧ s.hostStart = s ∧
      s.hostView.atDone = none := by decide +kernel

theorem witness_open4_gate : 7 ≤ (7 : Byte).toNat ∧ 7 ≤ (255 : Byte).toNat ∧ (6 : Byte).toNat < 7 := by decide

theorem witness_fix_pairs :
    ((0 : Raw).toInt, (-1 : Raw).toInt) ≠ (0, 0) ∧ ((0 : Raw).toInt, (-1 : Raw).toInt) ≠ (-1, -1) ∧
    ((0 : Raw).toInt, (0 : Raw).toInt) = (0, 0) ∧ ((-1 : Raw).toInt, (-1 : Raw).toInt) = (-1, -1) := by decide

theorem witness_finalize :
    (let s := { State.reset with mode := some 6, entry := some ⟨latA, lonA⟩ }
     s.mode = some 6 ∧ s.entry = some ⟨latA, lonA⟩) ∧
    (let s := { State.reset with mode := some 7, entry := some ⟨latA, lonA⟩ }; s.mode ≠ some 6) ∧
    (let s := { State.reset with mode := some 6 }; s.entry = none) := by decide

theorem witness_start :
    State.reset.ph = .idle ∧ ({ State.reset with ph := .done } : State).ph = .done := by decide

theorem witness_running :
    (inDec []).ph = .dec ∧ (inXor []).ph = .xor ∧ (inScan []).ph = .scan ∧ State.reset.hostStart.startReq = true := by
  decide

/-- A state in the middle of phase DEC: one literal decoded of a two-byte chunk. -/
def afterOneLit : State := { inDec [0x80, 0x80] with stream := [(0, 0x01)], sl := 1, bc := 9 }

theorem witness_inv : Inv afterOneLit := by
  constructor <;> simp [afterOneLit, inDec, State.reset, State.hostMayAct, State.chunkLen, Phase.running,
    Phase.beforeScan, Memory.wf, Memory.ofBytes, Memory.cells, List.range_succ]

theorem witness_inv_step : step afterOneLit = .next afterOneLit.nextChunk ∧ afterOneLit.ph = .dec :=
  ⟨step_exhaust rfl (by decide) (by decide), rfl⟩

/-- A DEC step, an XOR step, a SCAN step and a waiting step, each answering a next state. -/
theorem witness_next :
    (∃ t, step (inDec [0xFF, 0xFF]) = .next t) ∧ (∃ t, step (inXor (List.replicate 33 1)) = .next t) ∧
    (∃ t, step (inScan (List.replicate 64 1)) = .next t) ∧
    (∃ t, step { State.reset with ph := .done } = .next t ∧ t.ph = .done) := by
  refine ⟨⟨_, rfl⟩, ⟨_, rfl⟩, ⟨_, rfl⟩, ⟨_, rfl, rfl⟩⟩

/-- A view that shows the result, and two that show none. -/
theorem witness_view :
    (let s := { State.reset with ph := .done }; s.ph = .done ∧ s.startReq = false) ∧ State.reset.ph ≠ .done ∧
    { State.reset with ph := .done }.hostStart.startReq = true := by decide

/-- A run's end that changes `RES`, and a START that clears it. -/
theorem witness_result_changes :
    (let s := { inScan (List.replicate 64 0) with ri := 64, mode := some 6, entry := some ⟨latA, lonA⟩ }
     nextHas (step s) (fun t => t.res ≠ s.res && t.ph = .done) = true) ∧
    (let s := { State.reset with ph := .done, res := some ⟨⟨latA, lonA⟩, none⟩, startReq := true }
     nextHas (step s) (fun t => t.res ≠ s.res && t.ph = .dec) = true) := by decide +kernel

/-- Steps that change each capture register. -/
theorem witness_capture_changes :
    (let s := inScan (recordOf (.open4 7 6) ++ recordOf (.skip 0))
     nextHas (step s) (fun t => t.mode ≠ s.mode && s.ph = .scan) = true) ∧
    (let s := inScan (recordOf (.open9 latA lonA) ++ recordOf (.skip 0))
     nextHas (step s) (fun t => t.entry ≠ s.entry && s.ph = .scan) = true) ∧
    (let s := inScan (recordOf (.close9 latA lonA) ++ recordOf (.skip 0))
     nextHas (step s) (fun t => t.exit ≠ s.exit && s.ph = .scan) = true) := by decide +kernel

theorem witness_ignoredBits :
    ([0x00, 0x7F, 0xFF, 0xFF] : List Byte).length = ([0x00, 0x00, 0x00, 0x00] : List Byte).length ∧
    (∀ k, k < 4 → 9 * k + 9 ≤ 8 * 4 → (∀ j, j < k → refCode [0x00, 0x7F, 0xFF, 0xFF] (9 * j) ≠ 0) →
      refCode [0x00, 0x7F, 0xFF, 0xFF] (9 * k) = refCode [0x00, 0x00, 0x00, 0x00] (9 * k)) := by decide +kernel

theorem witness_xorDec_index :
    31 < (List.replicate 33 (0 : Byte)).length ∧ 32 < (List.replicate 33 (0 : Byte)).length := by decide

theorem witness_shortStream : (recordOf (.open4 7 6) ++ List.replicate 31 0).length < 64 := by decide +kernel

theorem witness_decPhase :
    let s := inDec [0x80, 0x80]
    s.ph = .dec ∧ s.cb = 0 ∧ s.bc = 0 ∧ s.stream = [] ∧ s.sl = 0 := by decide

theorem witness_xorPhase :
    let s := inXor [1, 2]
    s.ph = .xor ∧ s.xi = 32 ∧ s.stream = Memory.ofBytes [1, 2] ∧ s.sl = ([1, 2] : List Byte).length := by decide

theorem witness_scanPhase :
    let s := inScan (List.replicate 64 0)
    s.ph = .scan ∧ s.ri = 0 ∧ s.mode = none ∧ s.entry = none ∧ s.exit = none ∧
      s.stream = Memory.ofBytes (List.replicate 64 0) ∧ s.sl = (List.replicate 64 (0 : Byte)).length := by
  decide +kernel

/-- Two states about to start a run on the same input, one of them after another run. -/
theorem witness_run :
    let s := (State.reset.hostLoad [0x80, 0x80]).hostStart
    let r := ({ State.reset with ph := .done, mode := some 6, sl := 1, stream := [(0, 9)] }.hostLoad [0x80, 0x80]).hostStart
    s.ph = .idle ∧ r.ph = .done ∧ s.startReq = true ∧ r.startReq = true ∧ s.inputBytes = r.inputBytes := by
  decide +kernel

theorem witness_nonzero_raw : (1 : Raw) ≠ 0 ∧ (-1 : Raw) ≠ 0 := by decide

end Sys2Proof.Tests
end

/-!
PROOFS. A run computes Top (00_scope.md R6, R9, 43_finalize.md R138): each phase, from the state the phase before
leaves, is one run lemma, and a run is their composition. Runs of code, XOR and record steps are inductions over
the recursion of the reference function that the phase computes.
-/

namespace Sys2Proof.Machine

variable {s t : State}

/-! ### Runs -/

theorem run_one (h : step s = .next t) : Host.Core.run core 1 s = .next t := by
  rw [run_succ h, run_zero]

theorem run_trans {j k : Nat} {u : State} (h : Host.Core.run core j s = .next t)
    (h' : Host.Core.run core k t = .next u) : Host.Core.run core (j + k) s = .next u :=
  (run_add h).trans h'

/-- A host phase with no START outstanding lasts for any number of steps (R152). -/
theorem run_wait (hm : s.hostMayAct = true) (hr : s.startReq = false) (n : Nat) :
    Host.Core.run core n s = .next s := by
  induction n with
  | zero => rfl
  | succ n ih => rw [run_succ (step_wait hm hr), ih]

/-! ### States that hold a given stream -/

/-- `s` with the bytes `p` as its whole stream `S[0 .. SL-1]` (R17, R18). -/
def State.withStream (s : State) (p : List Byte) : State :=
  { s with stream := Memory.ofBytes p, sl := p.length }

section WithStream

variable (s : State) (p : List Byte)

@[simp] theorem State.withStream_stream : (s.withStream p).stream = Memory.ofBytes p := rfl
@[simp] theorem State.withStream_sl : (s.withStream p).sl = p.length := rfl

theorem State.appendStream_withStream (q : List Byte) :
    (s.withStream p).appendStream q = s.withStream (p ++ q) := by
  simp [State.withStream, State.appendStream, Memory.ofBytes_append]

end WithStream

/-! ### Phase DEC: codes -/

/-- The bytes of the current chunk, `IN[CB .. CB+CL-1]` (R43, R81). -/
def State.chunkBytes (s : State) : List Byte := (s.inputBytes.drop s.cb).take 144

@[simp] theorem State.advanceCursor_chunkLen (s : State) : s.advanceCursor.chunkLen = s.chunkLen := rfl

theorem State.chunkBytes_length (s : State) : s.chunkBytes.length = s.chunkLen := by
  simp [State.chunkBytes, State.chunkLen]

/-- A byte of the current chunk is the byte of `IN` that lies as far from `CB`. -/
theorem State.chunkBytes_getD {i : Nat} (h : i < s.chunkLen) :
    s.chunkBytes.getD i 0 = s.inputBytes.getD (s.cb + i) 0 := by
  have h144 : i < 144 := lt_of_lt_of_le h (Nat.min_le_left _ _)
  simp [State.chunkBytes, List.getD_eq_getElem?_getD, h144]

/-- FETCH reads the code that the reference reads from the chunk's bytes (R85, R93). -/
theorem State.cursorCode_toNat (hb : s.bc + 9 ≤ 8 * s.chunkLen) :
    s.cursorCode.toNat = refCode s.chunkBytes s.bc := by
  rw [State.cursorCode, codeWindow_toNat, refCode, State.chunkBytes_getD (by omega),
    State.chunkBytes_getD (by omega), Nat.add_assoc]

/-- What a code that is not END appends (R86, R88). -/
def codeOutput (code : Nat) : List Byte :=
  if 256 ≤ code then [BitVec.ofNat 8 code] else List.replicate code 0

theorem blockDecodeFrom_of_short {blk : List Byte} {bc : Nat} (h : 8 * blk.length < bc + 9) (fuel : Nat) :
    blockDecodeFrom blk bc fuel = [] := by
  cases fuel with
  | zero => rfl
  | succ fuel => rw [blockDecodeFrom, if_neg (by omega)]

theorem blockDecodeFrom_of_end {blk : List Byte} {bc : Nat} (h : refCode blk bc = 0) (fuel : Nat) :
    blockDecodeFrom blk bc fuel = [] := by
  cases fuel with
  | zero => rfl
  | succ fuel => simp [blockDecodeFrom, h]

theorem blockDecodeFrom_of_code {blk : List Byte} {bc : Nat} (hb : bc + 9 ≤ 8 * blk.length)
    (h : refCode blk bc ≠ 0) (fuel : Nat) :
    blockDecodeFrom blk bc (fuel + 1) = codeOutput (refCode blk bc) ++ blockDecodeFrom blk (bc + 9) fuel := by
  by_cases hlit : 256 ≤ refCode blk bc
  · simp [blockDecodeFrom, codeOutput, hb, hlit]
  · simp [blockDecodeFrom, codeOutput, hb, hlit, h]

/-- The literal flag of a code is its bit of weight 256 (R61). -/
theorem literalFlag_eq (c : Code) : c.getLsbD 8 = decide (256 ≤ c.toNat) :=
  (BitVec.msb_eq_getLsbD_last c).symm.trans (BitVec.msb_eq_decide c)

/-- A code that is not END appends its output and advances the cursor (R86, R88). -/
theorem exec_decodeCode {c : Code} (h : c.toNat ≠ 0) (s : State) :
    exec (decodeCode c) s = .next (s.appendStream (codeOutput c.toNat)).advanceCursor := by
  have hc : c ≠ 0 := fun e => h (by rw [e]; rfl)
  by_cases hlit : 256 ≤ c.toNat
  · have hp : codePayload c = BitVec.ofNat 8 c.toNat := rfl
    rw [decodeCode, if_neg hc, if_neg (by rw [literalFlag_eq]; simpa using hlit), exec_lit, codeOutput, if_pos hlit, hp]
  · have hp : (codePayload c).toNat = c.toNat := by
      rw [codePayload, BitVec.toNat_setWidth, Nat.mod_eq_of_lt (by omega)]
    rw [decodeCode, if_neg hc, if_pos (by rw [literalFlag_eq]; simpa using hlit), exec_zrun, codeOutput,
      if_neg hlit, hp]

/-- From any cursor, the rest of a chunk is decoded in at most one step for each code left and one to move on
(R82, R83, R87, R89), and appends what BlockDecode gives from that cursor. -/
theorem run_chunkFrom (fuel : Nat) (s : State) (p : List Byte) (hph : s.ph = .dec) (hcb : s.cb < s.len)
    (hf : 8 * s.chunkLen < s.bc + 9 * fuel + 9) :
    ∃ k, 9 * k ≤ 8 * s.chunkLen - s.bc + 9 ∧ Host.Core.run core k (s.withStream p) =
      .next (s.withStream (p ++ blockDecodeFrom s.chunkBytes s.bc fuel)).nextChunk := by
  have hlen := s.chunkBytes_length
  induction fuel generalizing s p with
  | zero =>
    refine ⟨1, by omega, run_one ?_⟩
    rw [blockDecodeFrom_of_short (by omega), List.append_nil]
    exact step_exhaust (s := s.withStream p) hph hcb hf
  | succ fuel ih =>
    by_cases hb : s.bc + 9 ≤ 8 * s.chunkLen
    · have hcode := State.cursorCode_toNat hb
      have hstep : step (s.withStream p) = exec (decodeCode s.cursorCode) (s.withStream p) :=
        step_code (s := s.withStream p) hph hcb hb
      by_cases hend : refCode s.chunkBytes s.bc = 0
      · have hzero : s.cursorCode = 0 := BitVec.eq_of_toNat_eq (hcode.trans hend)
        refine ⟨1, by omega, run_one ?_⟩
        rw [blockDecodeFrom_of_end hend, List.append_nil, hstep, hzero]
        rfl
      · rw [exec_decodeCode (by omega), hcode, State.appendStream_withStream] at hstep
        obtain ⟨k, hk, hrun⟩ := ih s.advanceCursor (p ++ codeOutput (refCode s.chunkBytes s.bc)) hph hcb
          (by rw [State.advanceCursor_chunkLen, State.advanceCursor_bc]; omega) hlen
        rw [State.advanceCursor_chunkLen, State.advanceCursor_bc] at hk
        refine ⟨k + 1, by omega, ?_⟩
        rw [run_succ hstep, blockDecodeFrom_of_code (by omega) hend, ← List.append_assoc]
        exact hrun
    · refine ⟨1, by omega, run_one ?_⟩
      rw [blockDecodeFrom_of_short (by omega), List.append_nil]
      exact step_exhaust (s := s.withStream p) hph hcb (Nat.lt_of_not_le hb)

/-! ### Phase DEC: chunks -/

/-- `s` at the first bit of chunk `m` (R12, R14). -/
def State.atChunk (s : State) (m : Nat) : State := { s with cb := 144 * m, bc := 0 }

/-- A chunk costs at most 129 steps (R138) and appends its BlockDecode (R90). -/
theorem run_chunk {m : Nat} (hph : s.ph = .dec) (hm : 144 * m < s.len) (p : List Byte) :
    ∃ k, k ≤ 129 ∧ Host.Core.run core k ((s.atChunk m).withStream p) =
      .next ((s.atChunk (m + 1)).withStream (p ++ blockDecode (chunkOf s.inputBytes m))) := by
  have hcl : (s.atChunk m).chunkLen ≤ 144 := Nat.min_le_left _ _
  obtain ⟨k, hk, hrun⟩ := run_chunkFrom (s.atChunk m).chunkBytes.length (s.atChunk m) p hph hm
    (by rw [State.chunkBytes_length]; omega)
  exact ⟨k, by omega, hrun⟩

/-- The first `m` chunks append their outputs in chunk order (R90). -/
theorem run_chunks (hph : s.ph = .dec) (m : Nat) (hm : m ≤ chunkCount s.len) :
    ∃ k, k ≤ 129 * m ∧ Host.Core.run core k ((s.atChunk 0).withStream []) =
      .next ((s.atChunk m).withStream
        ((List.range m).flatMap fun j => blockDecode (chunkOf s.inputBytes j))) := by
  induction m with
  | zero => exact ⟨0, by omega, rfl⟩
  | succ m ih =>
    have hlt : 144 * m < s.len := by rw [chunkCount] at hm; omega
    obtain ⟨j, hj, hrun⟩ := ih (by omega)
    obtain ⟨k, hk, hchunk⟩ := run_chunk hph hlt
      ((List.range m).flatMap fun j => blockDecode (chunkOf s.inputBytes j))
    refine ⟨j + k, by omega, ?_⟩
    rw [run_trans hrun hchunk, List.range_succ, List.flatMap_append, List.flatMap_singleton]

/-- Phase DEC computes `Pre` (R93) within R138's count of its steps. -/
theorem run_decPhase (hph : s.ph = .dec) :
    ∃ k, k ≤ 129 * chunkCount s.len + 1 ∧ Host.Core.run core k ((s.atChunk 0).withStream []) =
      .next (((s.atChunk (chunkCount s.len)).withStream (preStream s.inputBytes)).setPhase .xor) := by
  obtain ⟨k, hk, hrun⟩ := run_chunks hph _ le_rfl
  refine ⟨k + 1, by omega, ?_⟩
  rw [preStream, State.inputBytes_length]
  have hend : s.len ≤ 144 * chunkCount s.len := by rw [chunkCount]; omega
  exact run_trans hrun (run_one (step_leaveDec hph hend))

/-! ### Phase XOR -/

/-- One turn of XorDec's loop (R105). -/
def xorRound (d : List Byte) (i : Nat) : List Byte := d.set i (d.getD i 0 ^^^ d.getD (i - 32) 0)

@[simp] theorem xorRound_length (d : List Byte) (i : Nat) : (xorRound d i).length = d.length := by
  simp [xorRound]

theorem xorDec_eq_foldl (p : List Byte) :
    xorDec p = (List.range' 32 (p.length - 32)).foldl xorRound p := rfl

theorem foldl_xorRound_length (is : List Nat) (d : List Byte) : (is.foldl xorRound d).length = d.length := by
  induction is generalizing d with
  | nil => rfl
  | cons i is ih => rw [List.foldl_cons, ih, xorRound_length]

theorem xorDec_length (p : List Byte) : (xorDec p).length = p.length :=
  foldl_xorRound_length _ p

/-- An XOR step on a stream without holes is one turn of the loop (R100). -/
theorem step_xorRound {d : List Byte} (hph : s.ph = .xor) (h32 : 32 ≤ s.xi) (hx : s.xi < d.length) :
    step (s.withStream d) = .next (s.nextXorIndex.withStream (xorRound d s.xi)) := by
  have hread : ∀ i, i < d.length → (s.withStream d).stream.read i = some (d.getD i 0) := fun i hi => by
    simp [Memory.read_ofBytes, hi]
  have hops := State.xorOperands_some (s := s.withStream d) |>.2 ⟨h32, hx, hread s.xi hx, hread (s.xi - 32) (by omega)⟩
  rw [step_xorb (s := s.withStream d) hph hx, exec_xorb_of_operands hops]
  simp [State.withStream, State.storeStream, State.nextXorIndex, Memory.ofBytes_write d hx, xorRound]

/-- `n` XOR steps are `n` turns of the loop, from any index (R100, R105). -/
theorem run_xorRounds (n : Nat) (s : State) (d : List Byte) (hph : s.ph = .xor) (h32 : 32 ≤ s.xi)
    (hn : n ≤ d.length - s.xi) :
    Host.Core.run core n (s.withStream d) =
      .next ({ s with xi := s.xi + n }.withStream ((List.range' s.xi n).foldl xorRound d)) := by
  induction n generalizing s d with
  | zero => rfl
  | succ n ih =>
    have hrest : s.nextXorIndex.xi + n = s.xi + (n + 1) := by rw [State.nextXorIndex_xi]; omega
    rw [run_succ (step_xorRound hph h32 (by omega)),
      ih s.nextXorIndex (xorRound d s.xi) hph (by simp; omega) (by simp only [xorRound_length, State.nextXorIndex_xi]; omega), hrest]
    rfl

/-- Phase XOR computes XorDec (R105) in exactly one step per byte from 32 up and one to leave (R107). -/
theorem run_xorPhase (hph : s.ph = .xor) (hxi : s.xi = 32) (p : List Byte) :
    Host.Core.run core (p.length - 32 + 1) (s.withStream p) =
      .next ({ s with ph := .scan, xi := s.xi + (p.length - 32) }.withStream (xorDec p)) := by
  have hrounds := run_xorRounds (p.length - 32) s p hph (by omega) (by omega)
  rw [hxi, ← xorDec_eq_foldl] at hrounds
  have hend : (xorDec p).length ≤ 32 + (p.length - 32) := by rw [xorDec_length]; omega
  rw [hxi]
  exact run_trans hrounds (run_one (step_leaveXor hph hend))

/-! ### Phase SCAN: one record -/

/-- The three capture registers (R21 to R23). -/
structure ScanRegs where
  mode : Option Byte
  entry : Option Fix
  exit : Option Fix

/-- The capture registers as START leaves them (R161). -/
def ScanRegs.empty : ScanRegs := ⟨none, none, none⟩

/-- The captures they stand for in the reference, the fixes as signed integers (R137). -/
def ScanRegs.ints (c : ScanRegs) : Captures := ⟨c.mode, c.entry.map Fix.ints, c.exit.map Fix.ints⟩

/-- `s` at stream index `ri` with the captures `c`: all that phase SCAN changes before its end. -/
def State.scanAt (s : State) (ri : Nat) (c : ScanRegs) : State :=
  { s with ri := ri, mode := c.mode, entry := c.entry, exit := c.exit }

/-- The window's coordinate field is the reference's field of the stream (R72, R137). -/
theorem recordField_toInt {w d : List Byte} {i o : Nat} (ho : o + 3 < 32)
    (hw : ∀ o, o < 32 → recordByte w o = d.getD (i + o) 0) :
    (recordField w o).toInt = refField d (i + o) := by
  rw [← s32_toNat, recordField, rawOfBytes_toNat, refField, hw o (by omega), hw (o + 1) (by omega),
    hw (o + 2) (by omega), hw (o + 3) ho]
  simp only [Nat.add_assoc]

theorem isSentinel_iff (f : Fix) : f.isSentinel = true ↔ f.ints = (0, 0) ∨ f.ints = (-1, -1) := by
  simp [Fix.isSentinel, Fix.ints]

/-- The fix that a record's fields make, captured unless it is a sentinel (R117, R118). -/
theorem refFix_eq {w d : List Byte} {i : Nat} (hw : ∀ o, o < 32 → recordByte w o = d.getD (i + o) 0) :
    refFix d i =
      if Fix.isSentinel ⟨recordField w 21, recordField w 25⟩ then none
      else some (Fix.ints ⟨recordField w 21, recordField w 25⟩) := by
  simp only [refFix, isSentinel_iff, Fix.ints, recordField_toInt (by omega : 21 + 3 < 32) hw,
    recordField_toInt (by omega : 25 + 3 < 32) hw]

/-- A record's meaning is one turn of Extract's loop on the captures (R113 to R116, R137). -/
theorem exec_decodeRecord_ints {w d : List Byte} {i : Nat}
    (hw : ∀ o, o < 32 → recordByte w o = d.getD (i + o) 0) (s : State) (c : ScanRegs) :
    ∃ c' : ScanRegs, exec (decodeRecord w) (s.scanAt i c) = .next (s.scanAt (i + 32) c') ∧
      c'.ints = scanWindow d c.ints i := by
  have htype : ∀ ty : Byte, (d.getD i 0).toNat = ty.toNat ↔ recordByte w 0 = ty := fun ty => by
    rw [hw 0 (by omega), BitVec.toNat_inj]; rfl
  have hopen4 := htype 0x14
  have hopen9 := htype 0x19
  have hclose9 := htype 0x29
  simp only [BitVec.reduceToNat] at hopen4 hopen9 hclose9
  simp only [scanWindow, decodeRecord, Config.offType, hopen4, hopen9, hclose9]
  by_cases isOpen4 : recordByte w 0 = 0x14
  · simp only [if_pos isOpen4, exec_open4, hw 16 (by omega), hw 28 (by omega)]
    split
    · exact ⟨{ c with mode := some (d.getD (i + 28) 0) }, rfl, rfl⟩
    · exact ⟨c, rfl, rfl⟩
  by_cases isOpen9 : recordByte w 0 = 0x19
  · simp only [if_neg isOpen4, if_pos isOpen9, exec_open9, refFix_eq hw]
    split
    · exact ⟨c, rfl, rfl⟩
    · exact ⟨{ c with entry := some ⟨recordField w 21, recordField w 25⟩ }, rfl, rfl⟩
  by_cases isClose9 : recordByte w 0 = 0x29
  · simp only [if_neg isOpen4, if_neg isOpen9, if_pos isClose9, exec_close9, refFix_eq hw]
    split
    · exact ⟨c, rfl, rfl⟩
    · exact ⟨{ c with exit := some ⟨recordField w 21, recordField w 25⟩ }, rfl, rfl⟩
  · simp only [if_neg isOpen4, if_neg isOpen9, if_neg isClose9]
    exact ⟨c, rfl, rfl⟩

/-! ### Phase SCAN: the whole stream -/

/-- A SCAN step with a full window is one turn of Extract's loop (R111, R112). -/
theorem step_scanWindow {d : List Byte} {i : Nat} (hph : s.ph = .scan) (hd : 64 ≤ d.length)
    (hi : i + 31 < d.length) (c : ScanRegs) :
    ∃ c' : ScanRegs, step ((s.withStream d).scanAt i c) = .next ((s.withStream d).scanAt (i + 32) c') ∧
      c'.ints = scanWindow d c.ints i := by
  obtain ⟨w, hw⟩ := State.fetchRecord_exists (s := (s.withStream d).scanAt i c) (Memory.full_ofBytes d) hi
  have hbytes : ∀ o, o < 32 → recordByte w o = d.getD (i + o) 0 := fun o ho => by
    have hread : (Memory.ofBytes d).read (i + o) = some (recordByte w o) :=
      ((State.fetchRecord_some hw).2 o ho).2
    rw [Memory.read_ofBytes] at hread
    rw [List.getD_eq_getElem?_getD, hread, Option.getD_some]
  rw [step_record (s := (s.withStream d).scanAt i c) hph hd hi hw]
  exact exec_decodeRecord_ints hbytes _ c

theorem scanRecords_succ (d : List Byte) (n : Nat) :
    scanRecords d (n + 1) = scanWindow d (scanRecords d n) (32 * n) := by
  rw [scanRecords, List.range_succ, List.foldl_concat]
  rfl

/-- The first `n` records cost one step each and leave the reference's captures (R112, R137). -/
theorem run_records {d : List Byte} (hph : s.ph = .scan) (hd : 64 ≤ d.length) (n : Nat)
    (hn : 32 * n ≤ d.length) :
    ∃ c : ScanRegs, Host.Core.run core n ((s.withStream d).scanAt 0 .empty) =
        .next ((s.withStream d).scanAt (32 * n) c) ∧ c.ints = scanRecords d n := by
  induction n with
  | zero => exact ⟨.empty, rfl, rfl⟩
  | succ n ih =>
    obtain ⟨c, hrun, hc⟩ := ih (by omega)
    obtain ⟨c', hstep, hc'⟩ := step_scanWindow hph hd (i := 32 * n) (by omega) c
    exact ⟨c', run_trans hrun (run_one hstep), by rw [hc', hc, scanRecords_succ]⟩

/-- The policy on the registers is the reference's choice on the captures they stand for (R130, R137). -/
theorem resultInts_policy (c : ScanRegs) :
    resultInts (policy c.mode c.entry c.exit) =
      if c.ints.mode = some 6 then c.ints.entry.map fun e => (e, c.ints.exit) else none := by
  obtain ⟨mode, entry, exit⟩ := c
  cases mode with
  | none => rfl
  | some m =>
    cases entry with
    | none => simp [policy, resultInts, ScanRegs.ints]
    | some e => by_cases hm : m = 6 <;> simp [policy, resultInts, ScanRegs.ints, hm]

/-- A stream under 64 bytes has no result (R110, R137). -/
theorem extract_of_short {d : List Byte} (hd : d.length < 64) : extract d = none := if_pos hd

theorem extract_of_long {d : List Byte} (hd : 64 ≤ d.length) :
    extract d = if (scanRecords d (d.length / 32)).mode = some 6 then
      (scanRecords d (d.length / 32)).entry.map fun e => (e, (scanRecords d (d.length / 32)).exit)
      else none :=
  if_neg (by omega)

/-- Phase SCAN over a stream of 64 bytes or more: every record once, then FINALIZE (R112, R130). -/
theorem run_scan_long {d : List Byte} (hph : s.ph = .scan) (hd : 64 ≤ d.length) :
    ∃ c : ScanRegs, Host.Core.run core (d.length / 32 + 1) ((s.withStream d).scanAt 0 .empty) =
        .next (((s.withStream d).scanAt (32 * (d.length / 32)) c).finish (policy c.mode c.entry c.exit)) ∧
      c.ints = scanRecords d (d.length / 32) := by
  obtain ⟨c, hrun, hc⟩ := run_records hph hd (d.length / 32) (by omega)
  have hend : d.length ≤ 32 * (d.length / 32) + 31 := by omega
  exact ⟨c, run_trans hrun (run_one
    (step_finalize (s := (s.withStream d).scanAt (32 * (d.length / 32)) c) hph hd hend)), hc⟩

/-- Phase SCAN ends with Extract of the stream (R137) after at most one step per record and one to end. -/
theorem run_scanPhase (hph : s.ph = .scan) (d : List Byte) :
    ∃ (k ri : Nat) (c : ScanRegs) (r : Option Result), k ≤ d.length / 32 + 1 ∧
      Host.Core.run core k ((s.withStream d).scanAt 0 .empty) =
        .next (((s.withStream d).scanAt ri c).finish r) ∧ resultInts r = extract d := by
  rcases Nat.lt_or_ge d.length 64 with hd | hd
  · exact ⟨1, 0, .empty, none, by omega, run_one (step_gate hph hd), (extract_of_short hd).symm⟩
  · obtain ⟨c, hrun, hc⟩ := run_scan_long hph hd
    exact ⟨_, _, c, _, le_rfl, hrun, by rw [resultInts_policy, hc, extract_of_long hd]⟩

/-! ### The run -/

/-- `t` is at the end of a run on the input `inp`, with Top's stream and result (R9) and no START outstanding. -/
structure EndOfRun (inp : List Byte) (t : State) : Prop where
  ph : t.ph = .done
  startReq : t.startReq = false
  stream : t.stream = Memory.ofBytes (xorDec (preStream inp))
  sl : t.sl = (preStream inp).length
  res : resultInts t.res = top inp

/-- A START that is taken up leads to the end of its run within `runBound` steps, the input untouched: one step
for START, then the three phases (R138, R161). -/
theorem run_reaches_done (hm : s.hostMayAct = true) (hr : s.startReq = true) :
    ∃ k t, k ≤ runBound s.inputBytes ∧ Host.Core.run core k s = .next t ∧ EndOfRun s.inputBytes t ∧
      t.inp = s.inp ∧ t.len = s.len := by
  have hstart : Host.Core.run core 1 s = .next ((s.started.atChunk 0).withStream []) :=
    run_one (step_start hm hr)
  obtain ⟨kd, hkd, hdec⟩ := run_decPhase (s := s.started) rfl
  have hxor := run_xorPhase (s := (s.started.atChunk (chunkCount s.len)).setPhase .xor) rfl rfl
    (preStream s.inputBytes)
  obtain ⟨ks, ri, c, r, hks, hscan, hres⟩ := run_scanPhase
    (s := { (s.started.atChunk (chunkCount s.len)).setPhase .xor with
      ph := .scan, xi := 32 + ((preStream s.inputBytes).length - 32) }) rfl (xorDec (preStream s.inputBytes))
  refine ⟨1 + kd + ((preStream s.inputBytes).length - 32 + 1) + ks, _, ?_,
    run_trans (run_trans (run_trans hstart hdec) hxor) hscan, ⟨rfl, rfl, rfl, xorDec_length _, hres⟩, rfl, rfl⟩
  rw [xorDec_length] at hks
  rw [State.started_len] at hkd
  rw [runBound, State.inputBytes_length]
  omega

/-- From `runBound` steps on, the machine is at the end of the run: it gets there in time and then waits. -/
theorem run_endOfRun (hm : s.hostMayAct = true) (hr : s.startReq = true) {n : Nat}
    (hn : runBound s.inputBytes ≤ n) :
    ∃ t, Host.Core.run core n s = .next t ∧ EndOfRun s.inputBytes t ∧ t.inp = s.inp ∧ t.len = s.len := by
  obtain ⟨k, t, hk, hrun, hend, hinput⟩ := run_reaches_done hm hr
  have hwait := run_wait ((State.hostMayAct_iff t).2 (.inr hend.ph)) hend.startReq (n - k)
  refine ⟨t, ?_, hend, hinput⟩
  rw [← run_trans hrun hwait, Nat.add_sub_cancel' (hk.trans hn)]

/-- Settles O50, by composing START, the three phases and the wait at DONE. -/
theorem runComputesTop : Obligations.RunComputesTop := by
  intro s hph hr n hn
  obtain ⟨t, hrun, hend, hinp, hlen⟩ := run_endOfRun ((State.hostMayAct_iff s).2 hph) hr hn
  exact ⟨t, hrun, hend.ph, hend.stream, hend.sl, hend.res, hinp, hlen⟩

/-! ### What the host sees -/

/-- The host sees the result, the length and the stream at DONE with no START outstanding (R31), nothing of them
elsewhere (log entry 4). -/
theorem hostView_atDone (hph : s.ph = .done) (hr : s.startReq = false) :
    s.hostView.atDone = some (s.res, s.sl, s.stream) := if_pos ⟨hph, hr⟩

theorem hostView_hidden (h : s.ph ≠ .done ∨ s.startReq = true) : s.hostView.atDone = none := by
  refine if_neg fun ⟨hph, hr⟩ => ?_
  rcases h with hne | hreq
  · exact hne hph
  · rw [hr] at hreq; cases hreq

theorem Fix.ints_injective : Function.Injective Fix.ints := by
  rintro ⟨lat, lon⟩ ⟨lat', lon'⟩ h
  obtain ⟨hlat, hlon⟩ := Prod.mk.inj h
  exact congrArg₂ Fix.mk (BitVec.eq_of_toInt_eq hlat) (BitVec.eq_of_toInt_eq hlon)

/-- The signed integers of a result decide its registers (R26). -/
theorem resultInts_injective : Function.Injective resultInts := by
  refine Option.map_injective ?_
  rintro ⟨entry, exit⟩ ⟨entry', exit'⟩ h
  obtain ⟨hentry, hexit⟩ := Prod.mk.inj h
  exact congrArg₂ Result.mk (Fix.ints_injective hentry) (Option.map_injective Fix.ints_injective hexit)

/-- Two runs on the same input end in the same view of the host. -/
theorem EndOfRun.hostView_eq {inp : List Byte} {u : State} (ht : EndOfRun inp t) (hu : EndOfRun inp u) :
    t.hostView = u.hostView := by
  have hres : t.res = u.res := resultInts_injective (ht.res.trans hu.res.symm)
  simp only [State.hostView, ht.ph, hu.ph, ht.startReq, hu.startReq, ht.stream, hu.stream, ht.sl, hu.sl, hres]

/-- Settles O51: the end of a run is a function of its input, and the view a function of that end. -/
theorem runDependsOnTheInputAlone : Obligations.RunDependsOnTheInputAlone := by
  refine ⟨fun s => ⟨hostView_atDone, hostView_hidden⟩, ?_⟩
  intro s r hs hr hsReq hrReq hinput n m hn hm
  obtain ⟨t, hrunS, hendT, -⟩ := run_endOfRun ((State.hostMayAct_iff s).2 hs) hsReq hn
  obtain ⟨u, hrunR, hendU, -⟩ := run_endOfRun ((State.hostMayAct_iff r).2 hr) hrReq (hinput ▸ hm)
  exact ⟨t, u, hrunS, hrunR, hendT.ph, hendT.hostView_eq (hinput ▸ hendU),
    hostView_atDone hendT.ph hendT.startReq⟩

end Sys2Proof.Machine

/-!
PROOFS. What every step keeps (10_state.md): the invariant, the phase transitions, and which step may change the
input, the stream, the captures and the result. Each statement is a case analysis over `StepTo`, the inversion of
the step; a record's step is refined first by the register that its window captures (`RecordTo`).
-/

namespace Sys2Proof.Machine

variable {s t : State} {w : List Byte}

/-! ### What the step of a record does -/

/-- The pair of a fix record's window (R71, R72). -/
def recordFix (w : List Byte) : Fix := ⟨recordField w 21, recordField w 25⟩

/-- The pair of a window is the reference's signed fields of its bytes (R118, R137). -/
theorem recordFix_ints (w : List Byte) : (recordFix w).ints = (refField w 21, refField w 25) := by
  have hw : ∀ o, o < 32 → recordByte w o = w.getD (0 + o) 0 := fun o _ => by rw [Nat.zero_add]; rfl
  have hlat := recordField_toInt (by omega : 21 + 3 < 32) hw
  have hlon := recordField_toInt (by omega : 25 + 3 < 32) hw
  exact Prod.ext hlat hlon

/-- Everything the record in the window `w` can do, with the bytes that decide it (R112 to R117). -/
inductive RecordTo (w : List Byte) (s : State) : State → Prop
  | passed : RecordTo w s s.nextRecord
  | mode (htype : recordByte w 0 = 0x14) (hver : 7 ≤ (recordByte w 16).toNat) :
      RecordTo w s (s.captureMode (recordByte w 28)).nextRecord
  | entry (htype : recordByte w 0 = 0x19) (hfix : (recordFix w).isSentinel = false) :
      RecordTo w s (s.captureEntry (recordFix w)).nextRecord
  | exit (htype : recordByte w 0 = 0x29) (hfix : (recordFix w).isSentinel = false) :
      RecordTo w s (s.captureExit (recordFix w)).nextRecord

theorem recordTo_of_exec (h : exec (decodeRecord w) s = .next t) : RecordTo w s t := by
  unfold decodeRecord at h
  split at h
  next htype =>
    rw [exec_open4] at h
    cases h
    split
    next hver => exact .mode htype hver
    next => exact .passed
  next =>
    split at h
    next htype =>
      rw [exec_open9] at h
      cases h
      split
      next => exact .passed
      next hfix => exact .entry htype (Bool.eq_false_of_not_eq_true hfix)
    next =>
      split at h
      next htype =>
        rw [exec_close9] at h
        cases h
        split
        next => exact .passed
        next hfix => exact .exit htype (Bool.eq_false_of_not_eq_true hfix)
      next =>
        rw [exec_skip] at h
        cases h
        exact .passed

/-- A record's step leaves the phase, both byte spaces and the result as they are (R112, R24). -/
theorem RecordTo.frame (h : RecordTo w s t) :
    t.ph = s.ph ∧ t.inp = s.inp ∧ t.len = s.len ∧ t.stream = s.stream ∧ t.sl = s.sl ∧ t.res = s.res := by
  cases h with
  | passed | mode | entry | exit => exact ⟨rfl, rfl, rfl, rfl, rfl, rfl⟩

/-- In a running phase the captures stay, or the step is that of the record at `RI` (R21 to R24). -/
theorem captures_of_step (h : step s = .next t) (hrun : s.ph.running) :
    (t.mode = s.mode ∧ t.entry = s.entry ∧ t.exit = s.exit) ∨
      s.ph = .scan ∧ ∃ w, s.fetchRecord = some w ∧ RecordTo w s t := by
  cases stepTo_of_step h with
  | start hm hr =>
    rcases (State.hostMayAct_iff s).1 hm with hph | hph <;> simp [Phase.running, hph] at hrun
  | record hph hl hr w hw u he hu => exact .inr ⟨hph, w, hw, recordTo_of_exec he⟩
  | wait | leaveDec | exhaust | endBlock | zrun | lit | xorb | leaveXor | gate | finalize =>
    exact .inl ⟨rfl, rfl, rfl⟩

/-! ### The invariant -/

section Invariant

variable (hi : Inv s)
include hi

/-- During a run no START is outstanding (R164, log entry 3). -/
theorem Inv.no_request (hrun : s.ph.running) : s.startReq = false := by
  by_contra hreq
  rcases (State.hostMayAct_iff s).1 (hi.reqIdle (Bool.eq_true_of_not_eq_false hreq)) with hph | hph <;>
    simp [Phase.running, hph] at hrun

theorem Inv.started : Inv s.started where
  inpWf := hi.inpWf
  streamFull := rfl
  cbGrid := rfl
  bcGrid := rfl
  bcMax := Nat.zero_le _
  xiMin := le_rfl
  xiMax := le_max_left _ _
  riGrid := rfl
  riMax := le_rfl
  reqIdle := nofun
  idleFresh := nofun
  xiFresh _ := rfl
  scanFresh _ := ⟨rfl, rfl, rfl, rfl⟩
  xorComplete := by simp
  cursorInside _ := Nat.zero_le _
  cbMax _ := by simp
  slMax := Nat.zero_le _
  entryFix := nofun
  exitFix := nofun
  resFresh _ := rfl
  resShape := nofun

/-- Leaving phase DEC (R80). -/
theorem Inv.leaveDec (hph : s.ph = .dec) : Inv (s.setPhase .xor) where
  __ := hi
  reqIdle hreq := by simp [hi.no_request (.inl hph)] at hreq
  idleFresh := nofun
  xiFresh := by simp
  scanFresh _ := hi.scanFresh (.inr (.inl hph))
  xorComplete := by simp
  cursorInside _ := hi.cursorInside (.inl hph)
  cbMax _ := hi.cbMax (.inl hph)
  resFresh _ := hi.resFresh (by simp [hph])

/-- END and EXHAUST (R87, R89): a chunk holds at most 128 codes, so the count of codes is not behind. -/
theorem Inv.nextChunk (hph : s.ph = .dec) (hcb : s.cb < s.len) : Inv s.nextChunk where
  __ := hi
  cbGrid := by have := hi.cbGrid; simp only [State.nextChunk_cb]; omega
  bcGrid := rfl
  bcMax := Nat.zero_le _
  idleFresh hidle := by simp [hph] at hidle
  cursorInside _ := Nat.zero_le _
  cbMax _ := by simp only [State.nextChunk_cb, State.nextChunk_len]; omega
  slMax := by
    have := hi.slMax
    have := hi.bcMax
    simp only [State.nextChunk_sl, State.nextChunk_cb, State.nextChunk_bc]
    omega

/-- A code of a whole window, LIT or ZRUN (R86, R88), appends at most 255 bytes (R92). -/
theorem Inv.appendCode (hph : s.ph = .dec) (hb : s.bc + 9 ≤ 8 * s.chunkLen) {bs : List Byte}
    (hbs : bs.length ≤ 255) : Inv (s.appendStream bs).advanceCursor where
  __ := hi
  streamFull := Memory.full_writeBytes hi.streamFull bs
  bcGrid := by
    have := hi.bcGrid
    simp only [State.advanceCursor_bc, State.appendStream_bc]
    omega
  bcMax := by
    have hchunk : s.chunkLen ≤ 144 := min_le_left _ _
    simp only [State.advanceCursor_bc, State.appendStream_bc]
    omega
  xiMax := by simp [hi.xiFresh (.inr hph)]
  riMax := by simp [(hi.scanFresh (.inr (.inl hph))).1]
  idleFresh hidle := by simp [hph] at hidle
  xorComplete hlate := by simp [hph] at hlate
  cursorInside _ := hb
  slMax := by
    have := hi.slMax
    simp only [State.advanceCursor_sl, State.appendStream_sl, State.advanceCursor_cb, State.appendStream_cb,
      State.advanceCursor_bc, State.appendStream_bc]
    omega

/-- XORB on two existing operands (R100). -/
theorem Inv.xorb (hph : s.ph = .xor) (hx : s.xi < s.sl) (b : Byte) :
    Inv (s.storeStream s.xi b).nextXorIndex where
  __ := hi
  streamFull := Memory.full_write hi.streamFull hx b
  xiMin := Nat.le_succ_of_le hi.xiMin
  xiMax := le_max_of_le_right hx
  xiFresh hearly := by simp [hph] at hearly
  xorComplete hlate := by simp [hph] at hlate

/-- Leaving phase XOR (R107): a full stream lacks an operand of XORB only past its end. -/
theorem Inv.leaveXor (hph : s.ph = .xor) (hx : s.xorOperands = none) : Inv (s.setPhase .scan) where
  __ := hi
  reqIdle hreq := by simp [hi.no_request (.inr (.inl hph))] at hreq
  idleFresh := nofun
  xiFresh := by simp
  scanFresh := by simp [Phase.beforeScan]
  xorComplete _ := by
    by_contra hlt
    obtain ⟨a, b, hab⟩ := State.xorOperands_exist hi.streamFull hi.xiMin (Nat.lt_of_not_le hlt)
    rw [hx] at hab
    cases hab
  cursorInside _ := hi.cursorInside (.inr (.inl hph))
  cbMax _ := hi.cbMax (.inr (.inl hph))
  resFresh _ := hi.resFresh (by simp [hph])

/-- A record's step (R112 to R117). The result is still none, so no capture contradicts it. -/
theorem Inv.record (hph : s.ph = .scan) (hr : s.ri + 31 < s.sl) (h : RecordTo w s t) : Inv t := by
  have hlate : ¬ s.ph.beforeScan := by simp [Phase.beforeScan, hph]
  have hres (r : Result) : s.res ≠ some r := by simp [hi.resFresh (by simp [hph])]
  have hnext : Inv s.nextRecord :=
    { hi with
      riGrid := by have := hi.riGrid; simp only [State.nextRecord_ri]; omega
      riMax := hr
      scanFresh := fun hearly => absurd hearly hlate }
  cases h with
  | passed => exact hnext
  | mode =>
    exact { hnext with
      scanFresh := fun hearly => absurd hearly hlate
      resShape := fun r hr => absurd hr (hres r) }
  | entry htype hfix =>
    exact { hnext with
      scanFresh := fun hearly => absurd hearly hlate
      entryFix := fun f hf => Option.some.inj hf ▸ hfix
      resShape := fun r hr => absurd hr (hres r) }
  | exit htype hfix =>
    exact { hnext with
      scanFresh := fun hearly => absurd hearly hlate
      exitFix := fun f hf => Option.some.inj hf ▸ hfix
      resShape := fun r hr => absurd hr (hres r) }

/-- The step that ends a run (R110, R130), with a result that reports the captures. -/
theorem Inv.finish (hph : s.ph = .scan) {res : Option Result}
    (hres : ∀ r, res = some r → s.mode = some 6 ∧ s.entry = some r.entry ∧ s.exit = r.exit) :
    Inv (s.finish res) where
  __ := hi
  reqIdle _ := rfl
  idleFresh := nofun
  xiFresh := by simp
  scanFresh := by simp [Phase.beforeScan]
  xorComplete _ := hi.xorComplete (.inl hph)
  cursorInside hrun := by simp [Phase.running] at hrun
  cbMax hrun := by simp [Phase.running] at hrun
  resFresh hnot := absurd rfl hnot
  resShape := hres

end Invariant

/-- The policy gives a result only for mode 6 and an entry fix, and it reports the captures (R130 to R133). -/
theorem policy_some {mode : Option Byte} {entry exit : Option Fix} {r : Result}
    (h : policy mode entry exit = some r) : mode = some 6 ∧ entry = some r.entry ∧ exit = r.exit := by
  unfold policy at h
  split at h
  next m e =>
    split at h
    next hm => cases h; exact ⟨congrArg some hm, rfl, rfl⟩
    next => cases h
  next => cases h

/-- Settles O30: each effect of `StepTo` keeps the invariant. -/
theorem invKeptByEveryStep : Obligations.InvKeptByEveryStep := by
  intro s t hi h
  cases stepTo_of_step h with
  | wait => exact hi
  | start => exact hi.started
  | leaveDec hph => exact hi.leaveDec hph
  | exhaust hph hcb => exact hi.nextChunk hph hcb
  | endBlock hph hcb => exact hi.nextChunk hph hcb
  | zrun hph hcb hb n => exact hi.appendCode hph hb (by simp only [List.length_replicate]; omega)
  | lit hph hcb hb b => exact hi.appendCode hph hb (by simp)
  | xorb hph hx h32 a b => exact hi.xorb hph hx (a ^^^ b)
  | leaveXor hph hx => exact hi.leaveXor hph hx
  | gate hph => exact hi.finish hph nofun
  | record hph hl hr w hw u he hu => exact hi.record hph hr (recordTo_of_exec he)
  | finalize hph => exact hi.finish hph fun r => policy_some

/-! ### Phases, input and result -/

/-- Settles O33: the phases before and after each effect of `StepTo`. -/
theorem phaseTransitionsAreTheSpecs : Obligations.PhaseTransitionsAreTheSpecs := by
  intro s t h
  refine ⟨?_, rfl⟩
  cases stepTo_of_step h with
  | start hm hr => rcases (State.hostMayAct_iff s).1 hm with hph | hph <;> simp [hph]
  | leaveDec hph | leaveXor hph | gate hph | finalize hph => simp [hph]
  | record hph hl hr w hw u he hu =>
    obtain ⟨hsame, -⟩ := (recordTo_of_exec he).frame
    exact .inl hsame
  | wait | exhaust | endBlock | zrun | lit | xorb => exact .inl rfl

/-- Settles O34: no effect of `StepTo` touches `IN` or `LEN`. -/
theorem stepsNeverWriteTheInput : Obligations.StepsNeverWriteTheInput := by
  intro s t h
  cases stepTo_of_step h with
  | record hph hl hr w hw u he hu =>
    obtain ⟨-, hinp, hlen, -⟩ := (recordTo_of_exec he).frame
    exact ⟨hinp, hlen⟩
  | wait | start | leaveDec | exhaust | endBlock | zrun | lit | xorb | leaveXor | gate | finalize =>
    exact ⟨rfl, rfl⟩

/-- No window is left at `RI`, or one of its bytes is a hole of the stream (R51, R112, log entry 5). -/
theorem no_window_of_fetchRecord_none (h : s.fetchRecord = none) :
    s.sl ≤ s.ri + 31 ∨ ∃ o, o < 32 ∧ s.stream.read (s.ri + o) = none := by
  obtain ⟨o, ho, hsl | hread⟩ := State.fetchRecord_none.1 h
  · exact .inl (by omega)
  · exact .inr ⟨o, ho, hread⟩

/-- A step that reaches DONE is the gate's or FINALIZE's, unless the block was there already (R110, R130). -/
theorem end_of_run_cause (h : step s = .next t) (ht : t.ph = .done) :
    s.ph = .done ∨ (s.ph = .scan ∧ (s.sl < 64 ∨ s.fetchRecord = none)) := by
  cases stepTo_of_step h with
  | gate hph hl => exact .inr ⟨hph, .inl hl⟩
  | finalize hph hl hw => exact .inr ⟨hph, .inr hw⟩
  | record hph hl hr w hw u he hu =>
    obtain ⟨hsame, -⟩ := (recordTo_of_exec he).frame
    exact .inl (hsame ▸ ht)
  | start | leaveDec | leaveXor => cases ht
  | wait | exhaust | endBlock | zrun | lit | xorb => exact .inl ht

/-- Only the step that ends a run and START write `RES` (R25, R165). -/
theorem result_change_cause (h : step s = .next t) (hres : t.res ≠ s.res) :
    (s.ph = .scan ∧ t.ph = .done) ∨ ((s.ph = .idle ∨ s.ph = .done) ∧ t.ph = .dec ∧ t.res = none) := by
  cases stepTo_of_step h with
  | start hm hr => exact .inr ⟨(State.hostMayAct_iff s).1 hm, rfl, rfl⟩
  | gate hph | finalize hph => exact .inl ⟨hph, rfl⟩
  | record hph hl hr w hw u he hu =>
    obtain ⟨-, -, -, -, -, hsame⟩ := (recordTo_of_exec he).frame
    exact absurd hsame hres
  | wait | leaveDec | exhaust | endBlock | zrun | lit | xorb | leaveXor => exact absurd rfl hres

/-- Settles O35, from the causes of an end of run and of a change of `RES`. -/
theorem resultWrittenOnlyAtTheEnd : Obligations.ResultWrittenOnlyAtTheEnd := by
  intro s t h
  refine ⟨fun ht => ?_, result_change_cause h⟩
  rcases end_of_run_cause h ht with hdone | ⟨hscan, hl | hw⟩
  · exact .inl hdone
  · exact .inr ⟨hscan, .inl hl⟩
  · exact .inr ⟨hscan, .inr (no_window_of_fetchRecord_none hw)⟩

/-! ### The captures -/

/-- Settles O36: of the records only an OPEN4 with an open gate writes `MODE`. -/
theorem modeChangesOnlyByAQualifyingRecord : Obligations.ModeChangesOnlyByAQualifyingRecord := by
  intro s t h hrun hmode
  rcases captures_of_step h hrun with ⟨hsame, -⟩ | ⟨hscan, w, hw, hrec⟩
  · exact absurd hsame hmode
  have hread := fun o ho => ((State.fetchRecord_some hw).2 o ho).2
  cases hrec with
  | passed | entry | exit => exact absurd rfl hmode
  | mode htype hver =>
    exact ⟨hscan, htype ▸ hread 0 (by omega), ⟨_, hread 16 (by omega), hver⟩, _, hread 28 (by omega), rfl⟩

/-- A fix that a record captures is the window's own pair and no sentinel (R117, R118). -/
theorem captured_fix_facts {ty : Byte} (hw : s.fetchRecord = some w) (htype : recordByte w 0 = ty)
    (hfix : (recordFix w).isSentinel = false) :
    ∃ (v : List Byte) (f : Fix), v.length = 32 ∧
      (∀ o, o < 32 → s.stream.read (s.ri + o) = some (v.getD o 0)) ∧ v.getD 0 0 = ty ∧
      some (recordFix w) = some f ∧ f.ints = (refField v 21, refField v 25) ∧
      f.ints ≠ (0, 0) ∧ f.ints ≠ (-1, -1) := by
  obtain ⟨hlen, hbytes⟩ := State.fetchRecord_some hw
  have hnot : ¬ ((recordFix w).ints = (0, 0) ∨ (recordFix w).ints = (-1, -1)) := by
    rw [← isSentinel_iff, hfix]
    exact Bool.false_ne_true
  obtain ⟨hzero, hminus⟩ := not_or.1 hnot
  exact ⟨w, recordFix w, hlen, fun o ho => (hbytes o ho).2, htype, rfl, recordFix_ints w, hzero, hminus⟩

/-- Settles O37: of the records only OPEN9 writes `ENTRY` and only CLOSE9 writes `EXIT`. -/
theorem fixesChangeOnlyByTheirRecords : Obligations.FixesChangeOnlyByTheirRecords := by
  intro s t h hrun
  rcases captures_of_step h hrun with ⟨-, hentry, hexit⟩ | ⟨hscan, w, hw, hrec⟩
  · exact ⟨fun hne => absurd hentry hne, fun hne => absurd hexit hne⟩
  cases hrec with
  | passed | mode => exact ⟨fun hne => absurd rfl hne, fun hne => absurd rfl hne⟩
  | entry htype hfix =>
    exact ⟨fun _ => ⟨hscan, rfl, rfl, captured_fix_facts hw htype hfix⟩, fun hne => absurd rfl hne⟩
  | exit htype hfix =>
    exact ⟨fun hne => absurd rfl hne, fun _ => ⟨hscan, rfl, rfl, captured_fix_facts hw htype hfix⟩⟩

/-! ### The stream -/

/-- Outside START a step only appends to `S`, or rewrites the byte at `XI`, or leaves `S` as it is (R17, R18). -/
theorem stream_of_step (h : step s = .next t) :
    (s.hostMayAct = true ∧ t.ph = .dec) ∨ (t.sl = s.sl ∧ t.stream = s.stream) ∨
      (s.ph = .dec ∧ ∃ bs, t.sl = s.sl + bs.length ∧ t.stream = s.stream.writeBytes s.sl bs) ∨
      (s.ph = .xor ∧ 32 ≤ s.xi ∧ ∃ b, t.sl = s.sl ∧ t.stream = s.stream.write s.xi b) := by
  cases stepTo_of_step h with
  | start hm hr => exact .inl ⟨hm, rfl⟩
  | zrun hph | lit hph => exact .inr (.inr (.inl ⟨hph, _, rfl, rfl⟩))
  | xorb hph hx h32 => exact .inr (.inr (.inr ⟨hph, h32, _, rfl, rfl⟩))
  | record hph hl hr w hw u he hu =>
    obtain ⟨-, -, -, hstream, hsl, -⟩ := (recordTo_of_exec he).frame
    exact .inr (.inl ⟨hsl, hstream⟩)
  | wait | leaveDec | exhaust | endBlock | leaveXor | gate | finalize => exact .inr (.inl ⟨rfl, rfl⟩)

/-- Settles O38, from the four things a step can do to `S`. -/
theorem streamChangesAsItsPhaseAllows : Obligations.StreamChangesAsItsPhaseAllows := by
  intro s t h
  rcases stream_of_step h with ⟨hm, hdec⟩ | ⟨hsl, hstream⟩ | ⟨hph, bs, hsl, hstream⟩ |
    ⟨hph, h32, b, hsl, hstream⟩
  · rcases (State.hostMayAct_iff s).1 hm with hph | hph <;> simp [hph, hdec]
  · simp [hsl, hstream]
  · simp only [hph, reduceCtorEq, false_implies, false_and, or_self, and_true, forall_const]
    exact ⟨by omega, fun a ha => hstream ▸ Memory.read_writeBytes_below s.stream s.sl bs ha⟩
  · simp only [hph, reduceCtorEq, false_implies, false_and, or_self, and_true, true_and, forall_const]
    exact ⟨hsl, fun a ha => hstream ▸ Memory.read_write_other s.stream b (by omega)⟩

/-- Settles O39: the codes counted by `CB` and `BC` are at most 128 for each chunk of the input. -/
theorem streamLengthIsBounded : Obligations.StreamLengthIsBounded := by
  intro s hi hrun
  have hcodes : 128 * (s.cb / 144) + s.bc / 9 ≤ 128 * ((s.len + 143) / 144) := by
    have hbc := hi.bcMax
    have hcb := hi.cbMax hrun
    have hcursor := hi.cursorInside hrun
    simp only [State.chunkLen, Config.chunk] at hcursor
    omega
  calc s.sl ≤ 255 * (128 * (s.cb / 144) + s.bc / 9) := hi.slMax
    _ ≤ 255 * (128 * ((s.len + 143) / 144)) := Nat.mul_le_mul_left 255 hcodes
    _ = 32640 * ((s.len + 143) / 144) := by omega

end Sys2Proof.Machine

/-!
PROOFS. Accesses to the spaces (20_memory.md): an XORB with an operand outside the stream makes none (R51), and the
host makes none from its START to DONE (R57, R164).
-/

namespace Sys2Proof.Machine

variable {s : State}

/-! ### XORB at the edge of the stream -/

/-- Settles O19: outside the stream XORB has no operands, and without operands it ends the phase. -/
theorem xorbNeverAccessesOutsideTheStream : Obligations.XorbNeverAccessesOutsideTheStream := by
  intro s houtside
  have hnone : s.xorOperands = none := State.xorOperands_none.2 houtside
  exact exec_xorb_of_none hnone

/-! ### The host during a run -/

/-- The host is not free exactly from its START to DONE: the complement of `State.hostFree_iff` (R164, log entry 4). -/
theorem State.hostFree_eq_false_iff :
    s.hostFree = false ↔ s.ph = .dec ∨ s.ph = .xor ∨ s.ph = .scan ∨ s.startReq = true := by
  rw [← Bool.not_eq_true, State.hostFree_iff]
  cases s.ph <;> simp

/-- Settles O27: each action of the host is ignored while it is not free. -/
theorem hostActionsDuringARunAreIgnored : Obligations.HostActionsDuringARunAreIgnored := by
  intro s a n b bs hrun
  have hbusy : s.hostFree = false := State.hostFree_eq_false_iff.2 hrun
  exact ⟨s.hostWriteInput_ignored a b hbusy, s.hostWriteLen_ignored n hbusy, s.hostLoad_ignored bs hbusy,
    s.hostStart_ignored hbusy⟩

end Sys2Proof.Machine

/-!
PROOFS. Encodings (30_encoding.md): the classes of packed codes by value (R64), the bits of a packed chunk (R62,
R76), what a record's bytes are after it is made (R75), and the classes of records by type byte (R69). Decoding
what was encoded, and the bits and bytes that no rule reads, follow from these.
-/

namespace Sys2Proof

open Machine

/-! ### Packed codes by value -/

theorem decodeCode_zero : decodeCode 0 = .endBlock := rfl

theorem decodeCode_of_run {c : Code} (h1 : 1 ≤ c.toNat) (h255 : c.toNat ≤ 255) :
    decodeCode c = .zrun (codePayload c) := by
  have hne : c ≠ 0 := by rintro rfl; exact absurd h1 (by decide)
  have hflag : c.getLsbD 8 = false := by rw [literalFlag_eq]; exact decide_eq_false (by omega)
  rw [decodeCode, if_neg hne, if_pos hflag]

theorem decodeCode_of_literal {c : Code} (h : 256 ≤ c.toNat) : decodeCode c = .lit (codePayload c) := by
  have hne : c ≠ 0 := by rintro rfl; exact absurd h (by decide)
  have hflag : c.getLsbD 8 = true := by rw [literalFlag_eq]; exact decide_eq_true h
  rw [decodeCode, if_neg hne, if_neg (by simp [hflag])]

theorem decodeCode_codeOf_run {n : Byte} (h : n ≠ 0) : decodeCode (codeOf false n) = .zrun n := by
  have hnum : (codeOf false n).toNat = n.toNat := by simp [codeOf_toNat]
  have hpos : n.toNat ≠ 0 := fun e => h (BitVec.eq_of_toNat_eq e)
  rw [decodeCode_of_run (by omega) (by omega), codeOf_payload]

theorem decodeCode_codeOf_literal (b : Byte) : decodeCode (codeOf true b) = .lit b := by
  have hnum : (codeOf true b).toNat = 256 + b.toNat := by simp [codeOf_toNat]
  rw [decodeCode_of_literal (by omega), codeOf_payload]

/-- A code is its literal flag joined to its payload (R61). -/
theorem codeOf_codePayload (c : Code) : codeOf (decide (256 ≤ c.toNat)) (codePayload c) = c := by
  apply BitVec.eq_of_toNat_eq
  rw [codeOf_toNat, codePayload, BitVec.toNat_setWidth]
  by_cases hlit : 256 ≤ c.toNat
  · rw [decide_eq_true hlit, if_pos rfl]
    omega
  · rw [decide_eq_false hlit, if_neg Bool.false_ne_true]
    omega

theorem wellFormed_decodeCode (c : Code) : WellFormed (decodeCode c) := by
  rcases decodeCode_cases c with h | ⟨n, hn, h⟩ | ⟨b, h⟩
  · rw [h]; rfl
  · rw [h]; exact decide_eq_true hn
  · rw [h]; rfl

theorem encode_decodeCode (c : Code) : encode (decodeCode c) = some (.code c) := by
  have hjoin := codeOf_codePayload c
  by_cases hend : c = 0
  · rw [hend]; rfl
  · have hpos : c.toNat ≠ 0 := fun e => hend (BitVec.eq_of_toNat_eq e)
    by_cases hlit : 256 ≤ c.toNat
    · rw [decide_eq_true hlit] at hjoin
      rw [decodeCode_of_literal hlit, encode, hjoin]
    · rw [decide_eq_false hlit] at hjoin
      rw [decodeCode_of_run (by omega) (by omega), encode, hjoin]

/-- Settles O3: the classes are the three ranges of the code's number. -/
theorem everyCodeHasItsClass : Obligations.EveryCodeHasItsClass := by
  intro c
  refine ⟨fun h => ?_, decodeCode_of_run, decodeCode_of_literal, wellFormed_decodeCode c, encode_decodeCode c⟩
  rw [BitVec.eq_of_toNat_eq (y := (0 : Code)) h, decodeCode_zero]

/-! ### Packed chunks -/

theorem packCodes_length (cs : List Code) : (packCodes cs).length = (9 * cs.length + 7) / 8 := by
  simp [packCodes]

/-- Bit `i` of byte `j` of a packed chunk is stream bit `8j + 7 - i` (R44, R76). -/
theorem packCodes_getLsbD (cs : List Code) {j i : Nat} (hj : j < (packCodes cs).length) (hi : i < 8) :
    ((packCodes cs).getD j 0).getLsbD i = packedBit cs (8 * j + (7 - i)) := by
  have hbyte : (packCodes cs).getD j 0 = byteOfBits fun i => packedBit cs (8 * j + i) := by
    rw [List.getD_eq_getElem _ _ hj]
    simp [packCodes]
  rw [hbyte, byteOfBits_getLsbD _ hi]

/-- Bit `i` of code `k` is stream bit `9k + 8 - i` (R62). -/
theorem packedBit_of_code (cs : List Code) (k : Nat) {i : Nat} (hi : i < 9) :
    packedBit cs (9 * k + (8 - i)) = (cs.getD k 0).getLsbD i := by
  have hcode : (9 * k + (8 - i)) / 9 = k := by omega
  have hbit : 8 - (9 * k + (8 - i)) % 9 = i := by omega
  rw [packedBit, Config.codeW, hcode, hbit]

/-- The window at bit offset `p mod 8` of the bytes from `p div 8` holds stream bits `p` to `p + 8` (R62, R63). -/
theorem codeWindow_packCodes (cs : List Code) {p i : Nat} (hp : p / 8 + 1 < (packCodes cs).length) (hi : i < 9) :
    (codeWindow ((packCodes cs).getD (p / 8) 0) ((packCodes cs).getD (p / 8 + 1) 0) (p % 8)).getLsbD i =
      packedBit cs (p + (8 - i)) := by
  rw [codeWindow_getLsbD _ _ hi]
  split
  next hlow =>
    rw [packCodes_getLsbD cs hp hlow]
    congr 1
    omega
  next hhigh =>
    rw [packCodes_getLsbD cs (by omega) (by omega)]
    congr 1
    omega

/-- Settles O2: bit by bit, the window at cursor `9k` and code `k` are the same bits of the packed stream. -/
theorem packedCodesAreFetchedBack : Obligations.PackedCodesAreFetchedBack := by
  intro cs k hk
  have hbytes : 9 * k / 8 + 1 < (packCodes cs).length := by
    rw [packCodes_length]
    omega
  refine ⟨hbytes, BitVec.eq_of_getLsbD_eq fun i hi => ?_⟩
  rw [codeWindow_packCodes cs hbytes hi, packedBit_of_code cs k hi]

/-! ### Records by type byte -/

section RecordClass

variable {w : List Byte}

theorem decode_record (h : w.length = 32) : decode (.record w) = .ok (decodeRecord w) := if_pos h

theorem decodeRecord_open4 (h : recordByte w 0 = 0x14) :
    decodeRecord w = .open4 (recordByte w 16) (recordByte w 28) := if_pos h

theorem decodeRecord_open9 (h : recordByte w 0 = 0x19) :
    decodeRecord w = .open9 (recordField w 21) (recordField w 25) := by
  simp [decodeRecord, h]

theorem decodeRecord_close9 (h : recordByte w 0 = 0x29) :
    decodeRecord w = .close9 (recordField w 21) (recordField w 25) := by
  simp [decodeRecord, h]

theorem decodeRecord_skip (h : ¬ IsKnownType (recordByte w 0)) : decodeRecord w = .skip (recordByte w 0) := by
  obtain ⟨h4, h9, hc⟩ : _ ∧ _ ∧ _ := by simpa only [IsKnownType, not_or] using h
  rw [decodeRecord, if_neg h4, if_neg h9, if_neg hc]

end RecordClass

/-! ### The bytes of a made record -/

/-- Writing a list of bytes into a record, in order, as `makeRecord` does. -/
def setBytes (w : List Byte) (fs : List (Nat × Byte)) : List Byte :=
  fs.foldl (fun w f => w.set f.1 f.2) w

theorem makeRecord_eq_setBytes (ty : Byte) (fs : List (Nat × Byte)) :
    makeRecord ty fs = setBytes (ty :: List.replicate 31 0) fs := rfl

theorem recordByte_set_same {w : List Byte} {o : Nat} (h : o < w.length) (b : Byte) :
    recordByte (w.set o b) o = b := by
  simp [recordByte, List.getD_eq_getElem?_getD, h]

theorem recordByte_set_other {a o : Nat} (h : o ≠ a) (w : List Byte) (b : Byte) :
    recordByte (w.set a b) o = recordByte w o := by
  simp [recordByte, List.getD_eq_getElem?_getD, List.getElem?_set_ne h.symm]

/-- A byte that is not written keeps its value. -/
theorem recordByte_setBytes_of_unwritten {fs : List (Nat × Byte)} {o : Nat} (h : o ∉ fs.map Prod.fst)
    (w : List Byte) : recordByte (setBytes w fs) o = recordByte w o := by
  induction fs generalizing w with
  | nil => rfl
  | cons f fs ih =>
    obtain ⟨hf, hfs⟩ := not_or.1 fun hmem => h (List.mem_cons.2 hmem)
    exact (ih hfs _).trans (recordByte_set_other hf w f.2)

/-- A byte that is written once reads back. -/
theorem recordByte_setBytes_of_written {fs : List (Nat × Byte)} (hn : (fs.map Prod.fst).Nodup) {o : Nat} {b : Byte}
    (hmem : (o, b) ∈ fs) {w : List Byte} (ho : o < w.length) : recordByte (setBytes w fs) o = b := by
  induction fs generalizing w with
  | nil => cases hmem
  | cons f fs ih =>
    obtain ⟨hf, hfs⟩ := List.nodup_cons.1 hn
    rcases List.mem_cons.1 hmem with rfl | htail
    · exact (recordByte_setBytes_of_unwritten hf _).trans (recordByte_set_same ho b)
    · exact ih hfs htail (by rw [List.length_set]; exact ho)

section MadeRecord

variable {ty : Byte} {fs : List (Nat × Byte)}

theorem recordByte_makeRecord_type (h : 0 ∉ fs.map Prod.fst) : recordByte (makeRecord ty fs) 0 = ty := by
  rw [makeRecord_eq_setBytes, recordByte_setBytes_of_unwritten h]
  rfl

theorem recordByte_makeRecord (hn : (fs.map Prod.fst).Nodup) {o : Nat} {b : Byte} (hmem : (o, b) ∈ fs)
    (ho : o < 32) : recordByte (makeRecord ty fs) o = b := by
  rw [makeRecord_eq_setBytes]
  exact recordByte_setBytes_of_written hn hmem (by simpa using ho)

/-- A coordinate field written into a record reads back (R72). -/
theorem recordField_makeRecord (hn : (fs.map Prod.fst).Nodup) {o : Nat} {r : Raw} (hsub : fieldBytes o r ⊆ fs)
    (ho : o + 3 < 32) : recordField (makeRecord ty fs) o = r := by
  have hbyte : ∀ {a b}, (a, b) ∈ fieldBytes o r → a < 32 → recordByte (makeRecord ty fs) a = b :=
    fun hmem ha => recordByte_makeRecord hn (hsub hmem) ha
  rw [recordField, hbyte (b := rawByte r 0) (by simp [fieldBytes]) (by omega),
    hbyte (b := rawByte r 1) (by simp [fieldBytes]) (by omega),
    hbyte (b := rawByte r 2) (by simp [fieldBytes]) (by omega),
    hbyte (b := rawByte r 3) (by simp [fieldBytes]) ho, rawOfBytes_rawByte]

theorem decode_makeRecord : decode (.record (makeRecord ty fs)) = .ok (decodeRecord (makeRecord ty fs)) :=
  decode_record (makeRecord_length ty fs)

end MadeRecord

/-- The bytes of a fix record with the given fields (R71). -/
def fixFields (lat lon : Raw) : List (Nat × Byte) := fieldBytes 21 lat ++ fieldBytes 25 lon

section FixRecord

variable (ty : Byte) (lat lon : Raw)

theorem encode_open9 : encode (.open9 lat lon) = some (.record (makeRecord 0x19 (fixFields lat lon))) := rfl

theorem encode_close9 : encode (.close9 lat lon) = some (.record (makeRecord 0x29 (fixFields lat lon))) := rfl

theorem fixFields_offsets : (fixFields lat lon).map Prod.fst = [21, 22, 23, 24, 25, 26, 27, 28] := rfl

theorem fixRecord_type : recordByte (makeRecord ty (fixFields lat lon)) 0 = ty :=
  recordByte_makeRecord_type (by rw [fixFields_offsets]; decide)

theorem fixRecord_lat : recordField (makeRecord ty (fixFields lat lon)) 21 = lat :=
  recordField_makeRecord (by rw [fixFields_offsets]; decide) (List.subset_append_left _ _) (by decide)

theorem fixRecord_lon : recordField (makeRecord ty (fixFields lat lon)) 25 = lon :=
  recordField_makeRecord (by rw [fixFields_offsets]; decide) (List.subset_append_right _ _) (by decide)

end FixRecord

/-! ### Decoding what was encoded

The record made for each type decodes to that type's instruction; `decode_encode` collects the cases. -/

theorem decode_makeRecord_open4 (ver mode : Byte) :
    decode (.record (makeRecord 0x14 [(16, ver), (28, mode)])) = .ok (.open4 ver mode) := by
  have hn : ([(16, ver), (28, mode)].map Prod.fst).Nodup := by simp
  rw [decode_makeRecord, decodeRecord_open4 (recordByte_makeRecord_type (by simp)),
    recordByte_makeRecord (b := ver) hn (by simp) (by decide),
    recordByte_makeRecord (b := mode) hn (by simp) (by decide)]

theorem decode_makeRecord_open9 (lat lon : Raw) :
    decode (.record (makeRecord 0x19 (fixFields lat lon))) = .ok (.open9 lat lon) := by
  rw [decode_makeRecord, decodeRecord_open9 (fixRecord_type ..), fixRecord_lat, fixRecord_lon]

theorem decode_makeRecord_close9 (lat lon : Raw) :
    decode (.record (makeRecord 0x29 (fixFields lat lon))) = .ok (.close9 lat lon) := by
  rw [decode_makeRecord, decodeRecord_close9 (fixRecord_type ..), fixRecord_lat, fixRecord_lon]

theorem decode_makeRecord_skip {ty : Byte} (h : ¬ IsKnownType ty) :
    decode (.record (makeRecord ty [])) = .ok (.skip ty) := by
  have htype : recordByte (makeRecord ty []) 0 = ty := recordByte_makeRecord_type List.not_mem_nil
  rw [decode_makeRecord, decodeRecord_skip (by rwa [htype]), htype]

theorem decode_encode {i : Instr} (hwf : WellFormed i) {e : Encoded} (h : encode i = some e) :
    decode e = .ok i := by
  cases i with
  | endBlock => cases h; rfl
  | zrun n => cases h; exact congrArg Except.ok (decodeCode_codeOf_run (of_decide_eq_true hwf))
  | lit b => cases h; exact congrArg Except.ok (decodeCode_codeOf_literal b)
  | open4 ver mode => cases h; exact decode_makeRecord_open4 ver mode
  | open9 lat lon => rw [encode_open9] at h; cases h; exact decode_makeRecord_open9 lat lon
  | close9 lat lon => rw [encode_close9] at h; cases h; exact decode_makeRecord_close9 lat lon
  | skip ty => cases h; exact decode_makeRecord_skip (of_decide_eq_true hwf)
  | xorb | start | finalize => cases h

theorem encode_eq_none_iff (i : Instr) : encode i = none ↔ i.format = .op := by
  cases i with
  | xorb | start | finalize => exact ⟨fun _ => rfl, fun _ => rfl⟩
  | endBlock | zrun | lit | open4 | open9 | close9 | skip =>
    exact ⟨fun h => absurd h (Option.some_ne_none _), fun h => nomatch h⟩

/-- Settles O1: a code reads back by its class and a record byte by byte, and format OP alone is not encoded. -/
theorem encodeThenDecodeGivesInstruction : Obligations.EncodeThenDecodeGivesInstruction :=
  fun i hwf => ⟨fun _ h => decode_encode hwf h, encode_eq_none_iff i⟩

/-! ### Records: what is read and what is not -/

/-- Settles O4: the decoder's case for each type byte, its fields read as the reference reads them. -/
theorem recordClassAndFields : Obligations.RecordClassAndFields := by
  intro w hlen
  have hlat : (recordField w 21).toInt = refField w 21 := congrArg Prod.fst (recordFix_ints w)
  have hlon : (recordField w 25).toInt = refField w 25 := congrArg Prod.snd (recordFix_ints w)
  rw [decode_record hlen]
  refine ⟨fun h => ?_, fun h => ?_, fun h => ?_, fun h4 h9 hc => ?_⟩
  · exact congrArg Except.ok (decodeRecord_open4 h)
  · exact ⟨_, _, congrArg Except.ok (decodeRecord_open9 h), hlat, hlon⟩
  · exact ⟨_, _, congrArg Except.ok (decodeRecord_close9 h), hlat, hlon⟩
  · exact congrArg Except.ok (decodeRecord_skip fun hknown => hknown.elim h4 fun h => h.elim h9 hc)

theorem recordField_congr {w v : List Byte} {o : Nat}
    (h : ∀ a, o ≤ a → a ≤ o + 3 → recordByte w a = recordByte v a) : recordField w o = recordField v o := by
  rw [recordField, recordField, h o (by omega) (by omega), h (o + 1) (by omega) (by omega),
    h (o + 2) (by omega) (by omega), h (o + 3) (by omega) (by omega)]

/-- Settles O5: each type's case of the decoder reads the type byte and the named bytes only. -/
theorem unreadRecordBytesDoNotMatter : Obligations.UnreadRecordBytesDoNotMatter := by
  intro w v hw hv (htype : recordByte w 0 = recordByte v 0) h4 hfix
  rw [decode_record hw, decode_record hv]
  congr 1
  have hfields (h : recordByte w 0 = 0x19 ∨ recordByte w 0 = 0x29) :
      recordField w 21 = recordField v 21 ∧ recordField w 25 = recordField v 25 :=
    ⟨recordField_congr fun a ha ha' => hfix h a ha (by omega),
      recordField_congr fun a ha ha' => hfix h a (by omega) ha'⟩
  by_cases hknown : IsKnownType (recordByte w 0)
  · rcases hknown with ht | ht | ht
    · obtain ⟨hver, hmode⟩ : recordByte w 16 = recordByte v 16 ∧ recordByte w 28 = recordByte v 28 := h4 ht
      rw [decodeRecord_open4 ht, decodeRecord_open4 (htype ▸ ht), hver, hmode]
    · obtain ⟨hlat, hlon⟩ := hfields (.inl ht)
      rw [decodeRecord_open9 ht, decodeRecord_open9 (htype ▸ ht), hlat, hlon]
    · obtain ⟨hlat, hlon⟩ := hfields (.inr ht)
      rw [decodeRecord_close9 ht, decodeRecord_close9 (htype ▸ ht), hlat, hlon]
  · rw [decodeRecord_skip hknown, decodeRecord_skip (htype ▸ hknown), htype]

/-! ### Chunk bits that no code is read from -/

/-- From code `k` on, chunks that agree up to the first END decode alike when no earlier code is END. -/
theorem blockDecodeFrom_congr {x y : List Byte} (hlen : x.length = y.length)
    (h : ∀ k, 9 * k + 9 ≤ 8 * x.length → (∀ j, j < k → refCode x (9 * j) ≠ 0) →
      refCode x (9 * k) = refCode y (9 * k))
    (fuel k : Nat) (hk : ∀ j, j < k → refCode x (9 * j) ≠ 0) :
    blockDecodeFrom x (9 * k) fuel = blockDecodeFrom y (9 * k) fuel := by
  induction fuel generalizing k with
  | zero => rfl
  | succ fuel ih =>
    by_cases hwhole : 9 * k + 9 ≤ 8 * x.length
    · have hcode := h k hwhole hk
      by_cases hend : refCode x (9 * k) = 0
      · rw [blockDecodeFrom_of_end hend, blockDecodeFrom_of_end (hcode ▸ hend)]
      · have hnext : ∀ j, j < k + 1 → refCode x (9 * j) ≠ 0 := fun j hj =>
          (Nat.lt_succ_iff_lt_or_eq.1 hj).elim (hk j) fun e => e ▸ hend
        rw [blockDecodeFrom_of_code hwhole hend, blockDecodeFrom_of_code (hlen ▸ hwhole) (hcode ▸ hend), hcode,
          ← Nat.mul_succ, ih (k + 1) hnext]
    · rw [blockDecodeFrom_of_short (by omega), blockDecodeFrom_of_short (by omega)]

/-- Settles O41, from code 0. -/
theorem ignoredChunkBitsDoNotMatter : Obligations.IgnoredChunkBitsDoNotMatter := by
  intro x y hlen h
  rw [blockDecode, blockDecode, ← hlen]
  exact blockDecodeFrom_congr hlen h x.length 0 fun j hj => absurd hj (Nat.not_lt_zero j)

/-! ### Words of the spec -/

/-- Settles O6: each word's code by its class, each coordinate by its number. -/
theorem knownWordsDecode : Obligations.KnownWordsDecode := by
  refine ⟨decodeCode_zero, ?_, ?_, ?_, ?_, ?_, ?_⟩
  · exact decodeCode_codeOf_run (n := 5) (by decide)
  · exact decodeCode_codeOf_literal 1
  · exact decodeCode_codeOf_literal 0
  · have hcode : codeWindow 0x81 0x7F 1 = codeOf false 5 := by decide
    exact congrArg Except.ok (hcode ▸ decodeCode_codeOf_run (by decide))
  · decide
  · decide

end Sys2Proof

/-!
PROOFS. Unit 1 (40_block_decoder.md). A step performs the code at the cursor, also for a table word that the model
places there; LIT and ZRUN follow one rule for appending at `SL`; the bound of a chunk's output (R92) follows the
recursion of BlockDecode.
-/

namespace Sys2Proof.Machine

variable {s : State}

/-! ### The code at the cursor -/

/-- Below `LEN` the block sees the byte that the host wrote (R40). -/
theorem State.inputBytes_getD_of_read {a : Nat} {b : Byte} (ha : a < s.len) (hread : s.inp.read a = some b) :
    s.inputBytes.getD a 0 = b := by
  have hin : s.inByte a = some b := by rw [State.inByte, if_pos ha, hread, Option.getD_some]
  rw [State.inByte_of_lt ha] at hin
  exact Option.some.inj hin

/-- With a whole code left both bytes of its window lie below `LEN` (R83). -/
theorem State.cursorCode_of_read {b0 b1 : Byte} (hcb : s.cb < s.len) (hb : s.bc + 9 ≤ 8 * s.chunkLen)
    (h0 : s.inp.read (s.cb + s.bc / 8) = some b0) (h1 : s.inp.read (s.cb + s.bc / 8 + 1) = some b1) :
    s.cursorCode = codeWindow b0 b1 (s.bc % 8) := by
  have hsecond : s.cb + s.bc / 8 + 1 < s.len := by
    simp only [State.chunkLen, Config.chunk] at hb
    omega
  rw [State.cursorCode, State.inputBytes_getD_of_read (Nat.lt_of_succ_lt hsecond) h0,
    State.inputBytes_getD_of_read hsecond h1]

/-- Settles O8: the fetched window's number is the shift of R63. -/
theorem stepPerformsDecodedCode : Obligations.StepPerformsDecodedCode := by
  intro s b0 b1 hph hcb hb h0 h1
  refine ⟨s.cursorCode, ?_, step_code hph hcb hb⟩
  rw [State.cursorCode_of_read hcb hb h0 h1, codeWindow_toNat]

/-! ### Table words -/

theorem decodeTableWord_code {nbits : Nat} (h : isCodeWord nbits = true) (w : Nat) :
    decodeTableWord nbits w = some (decodeCode (BitVec.ofNat 9 w)) := by
  obtain ⟨hbytes, hwindow⟩ := codeAtStart_window (BitVec.ofNat 9 w)
  rw [decodeTableWord, if_pos h, hbytes, decodeCodeBytes, if_pos (by decide), hwindow]
  rfl

theorem decodeTableWord_record {nbits : Nat} (h : isCodeWord nbits = false) (w : Nat) :
    decodeTableWord nbits w = some (decodeRecord (recordOfWord w)) := by
  rw [decodeTableWord, if_neg (by simp [h]), decode_record (recordOfWord_length w)]
  rfl

section PlaceCode

variable (s : State) (c : Code)

@[simp] theorem State.placeCode_ph : (s.placeCode c).ph = .dec := rfl
@[simp] theorem State.placeCode_cb : (s.placeCode c).cb = 0 := rfl
@[simp] theorem State.placeCode_bc : (s.placeCode c).bc = 0 := rfl

theorem State.placeCode_len_ge : 2 ≤ (s.placeCode c).len := le_max_right _ _

theorem State.placeCode_byte {k : Nat} (hk : k < (codeAtStart c).length) :
    (s.placeCode c).inputBytes.getD k 0 = (codeAtStart c).getD k 0 := by
  refine State.inputBytes_getD_of_read (lt_of_lt_of_le hk (s.placeCode_len_ge c)) ?_
  have hread := Memory.read_writeBytes_at s.inp 0 (codeAtStart c) hk
  rw [Nat.zero_add, List.getElem?_eq_getElem hk, ← List.getD_eq_getElem _ 0 hk] at hread
  exact hread

/-- A placed code is the code at the cursor. -/
theorem State.placeCode_cursorCode : (s.placeCode c).cursorCode = c := by
  obtain ⟨-, hwindow⟩ := codeAtStart_window c
  simp only [State.cursorCode, State.placeCode_cb, State.placeCode_bc, Nat.zero_div, Nat.zero_mod, Nat.zero_add]
  rw [s.placeCode_byte c Nat.two_pos, s.placeCode_byte c Nat.one_lt_two, hwindow]

theorem step_placeCode : step (s.placeCode c) = exec (decodeCode c) (s.placeCode c) := by
  have hlen := s.placeCode_len_ge c
  have hcb : (s.placeCode c).cb < (s.placeCode c).len := Nat.lt_of_lt_of_le Nat.two_pos hlen
  have hwhole : (s.placeCode c).bc + 9 ≤ 8 * (s.placeCode c).chunkLen := by
    simp only [State.chunkLen, Config.chunk, State.placeCode_cb, State.placeCode_bc]
    omega
  rw [step_code (s.placeCode_ph c) hcb hwhole, State.placeCode_cursorCode]

end PlaceCode

/-- A placed record is the window at `RI`. -/
theorem State.placeRecord_fetchRecord (s : State) {w : List Byte} (hw : w.length = 32) :
    (s.placeRecord w).fetchRecord = some w := by
  refine State.streamBytes_some.2 ⟨hw, fun o (ho : o < 32) => ?_⟩
  have hsl : (s.placeRecord w).ri + o < (s.placeRecord w).sl := by
    simp only [State.placeRecord, Config.minLen]
    omega
  rw [State.streamByte, if_pos hsl]
  simp [State.placeRecord, Memory.read_ofBytes, List.getElem?_append_left (hw ▸ ho)]

theorem step_placeRecord (s : State) {w : List Byte} (hw : w.length = 32) :
    step (s.placeRecord w) = exec (decodeRecord w) (s.placeRecord w) := by
  have hsl : 64 ≤ (s.placeRecord w).sl := le_max_left _ _
  have hri : (s.placeRecord w).ri = 0 := rfl
  exact step_record rfl hsl (by omega) (s.placeRecord_fetchRecord hw)

/-- Settles O7: a code row by the cursor's window, any other row by the record's window. -/
theorem placedWordIsPerformed : Obligations.PlacedWordIsPerformed := by
  intro s nbits w
  cases hrow : isCodeWord nbits with
  | true =>
    refine ⟨_, decodeTableWord_code hrow w, ?_⟩
    rw [State.withFetchWord, if_pos hrow, step_placeCode]
  | false =>
    refine ⟨_, decodeTableWord_record hrow w, ?_⟩
    rw [State.withFetchWord, if_neg (by simp [hrow]), step_placeRecord s (recordOfWord_length w)]

/-! ### Codes that append -/

section Append

variable (s : State) {bs : List Byte} {n : Nat} (hn : bs.length = n)
include hn

/-- Append and advance (R86, R88) write `S`, `SL` and `BC` only. -/
theorem State.appendStream_advanceCursor_eq :
    (s.appendStream bs).advanceCursor =
      { s with stream := (s.appendStream bs).advanceCursor.stream, sl := s.sl + n, bc := s.bc + 9 } := by
  subst hn
  rfl

theorem State.read_appendStream_at {k : Nat} (hk : k < n) :
    (s.appendStream bs).advanceCursor.stream.read (s.sl + k) = bs[k]? :=
  Memory.read_writeBytes_at s.stream s.sl bs (hn ▸ hk)

theorem State.read_appendStream_outside {a : Nat} (ha : a < s.sl ∨ s.sl + n ≤ a) :
    (s.appendStream bs).advanceCursor.stream.read a = s.stream.read a := by
  subst hn
  exact ha.elim (Memory.read_writeBytes_below s.stream s.sl bs) (Memory.read_writeBytes_above s.stream s.sl bs)

end Append

/-- LIT of zero is a run of one zero byte (R86, R88). -/
theorem exec_lit_zero (s : State) : exec (.lit 0) s = exec (.zrun 1) s := rfl

/-- Settles O15: LIT appends a list of one byte. -/
theorem litAppendsItsByte : Obligations.LitAppendsItsByte := by
  refine ⟨fun c => decodeCode_of_literal, fun b s => ⟨⟨_, exec_lit b s, ?_, ?_, fun a ha => ?_⟩, exec_lit_zero s⟩⟩
  · exact s.appendStream_advanceCursor_eq List.length_singleton
  · exact s.read_appendStream_at List.length_singleton Nat.one_pos
  · exact s.read_appendStream_outside List.length_singleton (Nat.lt_or_gt_of_ne ha)

theorem codePayload_toNat_of_run {c : Code} (h : c.toNat ≤ 255) : (codePayload c).toNat = c.toNat := by
  rw [codePayload, BitVec.toNat_setWidth, Nat.mod_eq_of_lt (by omega)]

/-- Settles O17: ZRUN appends a list of `n` zeros. -/
theorem zrunAppendsZeros : Obligations.ZrunAppendsZeros := by
  refine ⟨fun c h1 h255 => ⟨_, codePayload_toNat_of_run h255, decodeCode_of_run h1 h255⟩, fun n s => ?_⟩
  refine ⟨_, exec_zrun n s, ?_, fun k hk => ?_, fun a ha => ?_⟩
  · exact s.appendStream_advanceCursor_eq List.length_replicate
  · rw [s.read_appendStream_at List.length_replicate hk, List.getElem?_replicate, if_pos hk]
  · exact s.read_appendStream_outside List.length_replicate ha

/-! ### Leaving a chunk and leaving the phase -/

/-- Settles O16: END is the move to the next chunk. -/
theorem endMovesToTheNextChunk : Obligations.EndMovesToTheNextChunk :=
  ⟨decodeCode_zero, exec_endBlock⟩

/-- Settles O11: a chunk with no whole code left is exhausted. -/
theorem exhaustedChunkMovesOn : Obligations.ExhaustedChunkMovesOn :=
  fun _ hph hcb hshort => step_exhaust hph hcb hshort

/-- Settles O12: both exits are the write of the phase. -/
theorem phaseExitsChangeOnlyThePhase : Obligations.PhaseExitsChangeOnlyThePhase :=
  fun _ => ⟨fun hph hcb => step_leaveDec hph hcb, fun hph hxi => step_leaveXor hph hxi⟩

/-! ### Phase DEC -/

/-- A state with the start cursors and an empty stream is at the first bit of chunk 0 (R162). -/
theorem State.atChunk_zero_withStream_nil (hcb : s.cb = 0) (hbc : s.bc = 0) (hstream : s.stream = [])
    (hsl : s.sl = 0) : (s.atChunk 0).withStream [] = s := by
  cases s
  cases hcb; cases hbc; cases hstream; cases hsl
  rfl

/-- Settles O47, by the run lemma of phase DEC from chunk 0. -/
theorem decPhaseComputesThePreStream : Obligations.DecPhaseComputesThePreStream := by
  intro s hph hcb hbc hstream hsl
  obtain ⟨k, hk, hrun⟩ := run_decPhase hph
  rw [State.atChunk_zero_withStream_nil hcb hbc hstream hsl] at hrun
  exact ⟨k, hk, hrun⟩

/-! ### The bound of a chunk's output -/

/-- A code appends one byte, or as many as its number below 256 says (R92). -/
theorem codeOutput_length_le (code : Nat) : (codeOutput code).length ≤ 255 := by
  by_cases hlit : 256 ≤ code
  · simp [codeOutput, hlit]
  · simp only [codeOutput, if_neg hlit, List.length_replicate]
    omega

/-- From a cursor on, at most 255 bytes for each code that still fits (R92). -/
theorem blockDecodeFrom_length_le (blk : List Byte) (bc fuel : Nat) :
    (blockDecodeFrom blk bc fuel).length ≤ 255 * ((8 * blk.length - bc) / 9) := by
  induction fuel generalizing bc with
  | zero => exact Nat.zero_le _
  | succ fuel ih =>
    by_cases hwhole : bc + 9 ≤ 8 * blk.length
    · by_cases hend : refCode blk bc = 0
      · rw [blockDecodeFrom_of_end hend]
        exact Nat.zero_le _
      · have hfirst := codeOutput_length_le (refCode blk bc)
        have hrest := ih (bc + 9)
        rw [blockDecodeFrom_of_code hwhole hend, List.length_append]
        omega
    · rw [blockDecodeFrom_of_short (Nat.lt_of_not_le hwhole)]
      exact Nat.zero_le _

/-- Settles O42, from cursor 0. -/
theorem chunkOutputIsBounded : Obligations.ChunkOutputIsBounded :=
  fun x => blockDecodeFrom_length_le x 0 x.length

end Sys2Proof.Machine

/-!
PROOFS. Unit 2 (41_xor_decompressor.md). XorDec is the solution of one recurrence (R100, R102): a byte below index 32
is kept, and every other byte is XORed with the reversed byte 32 before it. The closed form (R104) and the round trip
(R106) follow from the recurrence alone; the machine side is the step and run rules of phase XOR.
-/

namespace Sys2Proof.Machine

/-! ### The recurrence of XorDec -/

section Recurrence

variable {d p : List Byte} {i : Nat}

/-- The round of an index rewrites its byte from the same mutable copy (R102). -/
theorem xorRound_getD_same (h : i < d.length) :
    (xorRound d i).getD i 0 = d.getD i 0 ^^^ d.getD (i - 32) 0 := by
  rw [xorRound, List.getD_eq_getElem?_getD, List.getElem?_set_self h, Option.getD_some]

theorem xorRound_getD_other {j : Nat} (h : i ≠ j) : (xorRound d i).getD j 0 = d.getD j 0 := by
  rw [xorRound, List.getD_eq_getElem?_getD, List.getElem?_set_ne h, List.getD_eq_getElem?_getD]

/-- The rounds of other indices leave a byte as it is. -/
theorem foldl_xorRound_getD_of_notMem {is : List Nat} (h : i ∉ is) :
    (is.foldl xorRound d).getD i 0 = d.getD i 0 := by
  induction is generalizing d with
  | nil => rfl
  | cons j is ih =>
    obtain ⟨hj, his⟩ : i ≠ j ∧ i ∉ is := by rwa [List.mem_cons, not_or] at h
    rw [List.foldl_cons, ih his, xorRound_getD_other (Ne.symm hj)]

/-- The loop of XorDec cut at the round of index `i`. -/
theorem xorDec_eq_at_round (h32 : 32 ≤ i) (hi : i < p.length) :
    xorDec p = (List.range' (i + 1) (p.length - (i + 1))).foldl xorRound
      (xorRound ((List.range' 32 (i - 32)).foldl xorRound p) i) := by
  have hcut : List.range' 32 (p.length - 32) =
      List.range' 32 (i - 32) ++ i :: List.range' (i + 1) (p.length - (i + 1)) := by
    rw [← List.range'_succ, show p.length - 32 = (i - 32) + (p.length - (i + 1) + 1) by omega,
      ← List.range'_append_1, show 32 + (i - 32) = i by omega]
  rw [xorDec_eq_foldl, hcut, List.foldl_append, List.foldl_cons]

/-- The first 32 bytes have no predecessor and are kept (R101). -/
theorem xorDec_getD_of_lt (h : i < 32) : (xorDec p).getD i 0 = p.getD i 0 := by
  rw [xorDec_eq_foldl]
  exact foldl_xorRound_getD_of_notMem (by simp; omega)

/-- From index 32 on the partner is the byte already reversed: the rounds before `i` leave `P[i]`, and the rounds
from `i` on leave `D[i - 32]` (R100, R102). -/
theorem xorDec_getD_of_ge (h32 : 32 ≤ i) (hi : i < p.length) :
    (xorDec p).getD i 0 = p.getD i 0 ^^^ (xorDec p).getD (i - 32) 0 := by
  rw [xorDec_eq_at_round h32 hi]
  have hlater : ∀ j, j ≤ i → j ∉ List.range' (i + 1) (p.length - (i + 1)) := fun j hj => by simp; omega
  have hearlier : i ∉ List.range' 32 (i - 32) := by simp; omega
  rw [foldl_xorRound_getD_of_notMem (hlater i le_rfl), foldl_xorRound_getD_of_notMem (hlater (i - 32) (by omega)),
    xorRound_getD_same (by rw [foldl_xorRound_length]; exact hi), xorRound_getD_other (by omega),
    foldl_xorRound_getD_of_notMem hearlier]

end Recurrence

/-! ### The closed form -/

/-- XOR of the first `n` bytes of residue class `r` (R104). -/
def residueXor (p : List Byte) (r n : Nat) : Byte :=
  (List.range n).foldl (fun acc k => acc ^^^ p.getD (r + 32 * k) 0) 0

theorem residueXor_one (p : List Byte) (r : Nat) : residueXor p r 1 = p.getD r 0 := BitVec.zero_xor

theorem residueXor_succ (p : List Byte) (r n : Nat) :
    residueXor p r (n + 1) = residueXor p r n ^^^ p.getD (r + 32 * n) 0 := by
  rw [residueXor, List.range_succ, List.foldl_concat]
  rfl

/-- Along a residue class the recurrence adds one byte at a time (R103, R104). -/
theorem xorDec_getD_eq_residueXor {p : List Byte} {r : Nat} (hr : r < 32) (k : Nat) (hk : r + 32 * k < p.length) :
    (xorDec p).getD (r + 32 * k) 0 = residueXor p r (k + 1) := by
  induction k with
  | zero => exact (xorDec_getD_of_lt hr).trans (residueXor_one p r).symm
  | succ k ih =>
    rw [residueXor_succ, ← ih (by omega), xorDec_getD_of_ge (by omega) hk, BitVec.xor_comm,
      show r + 32 * (k + 1) - 32 = r + 32 * k by omega]

/-- Settles O43: the closed form of `i` is that of its residue class, at the position `i / 32` in it. -/
theorem xorDecClosedForm : Obligations.XorDecClosedForm := by
  intro p i hi
  have hdiv : i % 32 + 32 * (i / 32) = i := Nat.mod_add_div i 32
  have hclosed := xorDec_getD_eq_residueXor (p := p) (Nat.mod_lt i (by decide)) (i / 32) (by omega)
  rw [hdiv] at hclosed
  exact ⟨xorDec_length p, hclosed, xorDec_getD_of_lt, fun h32 => xorDec_getD_of_ge h32 hi⟩

/-! ### The round trip -/

section RoundTrip

variable {d p q : List Byte} {i : Nat}

@[simp] theorem fwdDiff_length (d : List Byte) : (fwdDiff d).length = d.length := by
  rw [fwdDiff, List.length_map, List.length_range]

theorem fwdDiff_getD (h : i < d.length) :
    (fwdDiff d).getD i 0 = if i < 32 then d.getD i 0 else d.getD i 0 ^^^ d.getD (i - 32) 0 := by
  rw [fwdDiff, List.getD_eq_getElem?_getD, List.getElem?_map, List.getElem?_range h]
  rfl

/-- The forward difference below index 32 (R106). -/
theorem fwdDiff_getD_of_lt (h : i < 32) (hi : i < d.length) : (fwdDiff d).getD i 0 = d.getD i 0 := by
  rw [fwdDiff_getD hi, if_pos h]

/-- The forward difference from index 32 on (R106). -/
theorem fwdDiff_getD_of_ge (h32 : 32 ≤ i) (hi : i < d.length) :
    (fwdDiff d).getD i 0 = d.getD i 0 ^^^ d.getD (i - 32) 0 := by
  rw [fwdDiff_getD hi, if_neg (Nat.not_lt.2 h32)]

/-- Byte sequences of one length that agree at every index are equal. -/
theorem eq_of_getD_eq (hlen : p.length = q.length) (h : ∀ i, i < p.length → p.getD i 0 = q.getD i 0) : p = q :=
  List.ext_getElem hlen fun i hp hq => by
    rw [← List.getD_eq_getElem p 0 hp, ← List.getD_eq_getElem q 0 hq, h i hp]

theorem fwdDiff_xorDec (p : List Byte) : fwdDiff (xorDec p) = p := by
  refine eq_of_getD_eq (by rw [fwdDiff_length, xorDec_length]) fun i hi => ?_
  rw [fwdDiff_length] at hi
  by_cases h32 : 32 ≤ i
  · rw [fwdDiff_getD_of_ge h32 hi, xorDec_getD_of_ge h32 (xorDec_length p ▸ hi), BitVec.xor_assoc, BitVec.xor_self,
      BitVec.xor_zero]
  · rw [fwdDiff_getD_of_lt (Nat.not_le.1 h32) hi, xorDec_getD_of_lt (Nat.not_le.1 h32)]

/-- By strong induction on the index: the recurrence reaches back by 32, to a byte already restored. -/
theorem xorDec_fwdDiff_getD (i : Nat) (hi : i < p.length) : (xorDec (fwdDiff p)).getD i 0 = p.getD i 0 := by
  induction i using Nat.strong_induction_on with
  | h i ih =>
    by_cases h32 : 32 ≤ i
    · rw [xorDec_getD_of_ge h32 (by rwa [fwdDiff_length]), ih (i - 32) (by omega) (by omega),
        fwdDiff_getD_of_ge h32 hi, BitVec.xor_assoc, BitVec.xor_self, BitVec.xor_zero]
    · rw [xorDec_getD_of_lt (Nat.not_le.1 h32), fwdDiff_getD_of_lt (Nat.not_le.1 h32) hi]

theorem xorDec_fwdDiff (p : List Byte) : xorDec (fwdDiff p) = p := by
  have hlen : (xorDec (fwdDiff p)).length = p.length := by rw [xorDec_length, fwdDiff_length]
  exact eq_of_getD_eq hlen fun i hi => xorDec_fwdDiff_getD i (hlen ▸ hi)

end RoundTrip

/-- Settles O44: both directions, index by index from the recurrence. -/
theorem xorDecRoundTrip : Obligations.XorDecRoundTrip :=
  fun p => ⟨fwdDiff_xorDec p, xorDec_fwdDiff p⟩

/-! ### The steps that have no encoding -/

/-- A pending START is performed by the next step at IDLE and DONE (R161). -/
theorem step_eq_exec_start {s : State} (hm : s.hostMayAct = true) (hr : s.startReq = true) :
    step s = exec .start s := by
  rw [step_start hm hr, exec_start, if_pos hm]

/-- A window that reaches past the stream or has a hole is not fetched (R51). -/
theorem State.fetchRecord_none_of_gap {s : State}
    (h : s.sl ≤ s.ri + 31 ∨ ∃ o, o < 32 ∧ s.stream.read (s.ri + o) = none) : s.fetchRecord = none := by
  rcases h with hend | ⟨o, ho, hhole⟩
  · exact State.fetchRecord_none.2 ⟨31, by decide, .inl hend⟩
  · exact State.fetchRecord_none.2 ⟨o, ho, .inr hhole⟩

/-- Settles O10: one step rule for each of the three phase machine operations. -/
theorem stepPerformsPhaseOperations : Obligations.StepPerformsPhaseOperations := by
  intro s
  refine ⟨step_xorb, fun hph hlen hgap => ?_, fun hph hr => ?_⟩
  · exact step_finalize_of_none hph hlen (State.fetchRecord_none_of_gap hgap)
  · exact step_eq_exec_start ((State.hostMayAct_iff s).2 hph) hr

/-! ### XORB and phase XOR -/

/-- Settles O18: the write at `XI` is read back there and nowhere else. -/
theorem xorbRewritesItsByte : Obligations.XorbRewritesItsByte := by
  refine ⟨fun s hph => ⟨step_xorb hph, step_leaveXor hph⟩, fun s a b h32 hxi ha hb => ?_⟩
  have hops : s.xorOperands = some (a, b) := State.xorOperands_some.2 ⟨h32, hxi, ha, hb⟩
  exact ⟨_, exec_xorb_of_operands hops, rfl, Memory.read_write_same _ _ _,
    fun c hc => Memory.read_write_other _ _ hc⟩

/-- A state whose stream is `p`, said by its two registers, is its own `withStream`. -/
theorem State.withStream_self {s : State} {p : List Byte} (hstream : s.stream = Memory.ofBytes p)
    (hsl : s.sl = p.length) : s.withStream p = s := by
  rw [State.withStream, ← hstream, ← hsl]

/-- Settles O48: the run lemma of phase XOR, and its rounds for the states on the way. -/
theorem xorPhaseComputesXorDec : Obligations.XorPhaseComputesXorDec := by
  intro s p hph hxi hstream hsl
  have hself := State.withStream_self hstream hsl
  have hmax : max 32 p.length = 32 + (p.length - 32) := by omega
  refine ⟨?_, fun j hj => ?_⟩
  · have hrun := run_xorPhase hph hxi p
    rw [hself, hxi, ← hmax] at hrun
    rw [hsl, hrun, State.withStream, xorDec_length]
  · have hrun := run_xorRounds j s p hph hxi.ge (by omega)
    rw [hself] at hrun
    exact ⟨_, hrun, hph⟩

end Sys2Proof.Machine

/-!
PROOFS. Unit 3 (42_record_scanner.md). Each record's meaning in terms of its operands (R113 to R117, R120); the window
that a SCAN step performs (R111); which record decides a capture (R119), from the turn of Extract's loop; and phase
SCAN from the state phase XOR leaves (R110, R112), from the run lemmas of the scan.
-/

namespace Sys2Proof.Machine

variable {s : State}

/-! ### The meanings of the records -/

/-- What a fix record answers: from `kept` for the two sentinel pairs, from `captured` for every other pair (R117). -/
theorem next_of_isSentinel (f : Fix) (kept captured : State) :
    (f.ints ≠ (0, 0) → f.ints ≠ (-1, -1) →
      (.next (if f.isSentinel then kept else captured).nextRecord : Out) = .next captured.nextRecord) ∧
    (f.ints = (0, 0) ∨ f.ints = (-1, -1) →
      (.next (if f.isSentinel then kept else captured).nextRecord : Out) = .next kept.nextRecord) := by
  simp only [isSentinel_iff]
  constructor
  · intro hzero hminus
    rw [if_neg (not_or.2 ⟨hzero, hminus⟩)]
  · intro hsentinel
    rw [if_pos hsentinel]

/-- Settles O20: the gate is the comparison `7 ≤ ver.toNat`. -/
theorem open4CapturesTheMode : Obligations.Open4CapturesTheMode := by
  intro ver mode s
  rw [exec_open4]
  constructor
  · intro hopen
    rw [if_pos hopen]
    rfl
  · intro hclosed
    rw [if_neg (Nat.not_le.2 hclosed)]
    rfl

/-- Settles O21: the choice between the state as it was and the captured entry. -/
theorem open9CapturesTheEntryFix : Obligations.Open9CapturesTheEntryFix := by
  intro lat lon s
  rw [exec_open9]
  exact next_of_isSentinel ⟨lat, lon⟩ s (s.captureEntry ⟨lat, lon⟩)

/-- Settles O22: the choice between the state as it was and the captured exit. -/
theorem close9CapturesTheExitFix : Obligations.Close9CapturesTheExitFix := by
  intro lat lon s
  rw [exec_close9]
  exact next_of_isSentinel ⟨lat, lon⟩ s (s.captureExit ⟨lat, lon⟩)

/-- Settles O23: SKIP is the move to the next window. -/
theorem skipOnlyMovesOn : Obligations.SkipOnlyMovesOn := exec_skip

/-! ### The step on a full window -/

/-- The 32 bytes that lie from `RI` up, all below `SL`, are the window: the converse of `State.fetchRecord_some`. -/
theorem State.fetchRecord_of_read {w : List Byte} (hlen : w.length = 32) (hri : s.ri + 31 < s.sl)
    (hread : ∀ o, o < 32 → s.stream.read (s.ri + o) = some (recordByte w o)) : s.fetchRecord = some w := by
  refine State.streamBytes_some.2 ⟨hlen, fun o (ho : o < 32) => ?_⟩
  have hw : o < w.length := hlen ▸ ho
  rw [List.getElem?_eq_getElem hw, ← List.getD_eq_getElem w 0 hw]
  exact State.streamByte_some.2 ⟨by omega, hread o ho⟩

/-- Settles O9: the bytes at `RI` are the fetched window, and a whole window decodes. -/
theorem stepPerformsDecodedRecord : Obligations.StepPerformsDecodedRecord := by
  intro s w hph hlong hri hlen hread
  exact ⟨decodeRecord w, decode_record hlen, step_record hph hlong hri (State.fetchRecord_of_read hlen hri hread)⟩

/-- Settles O13: the length gate is the write of the result none. -/
theorem lengthGateEndsTheRun : Obligations.LengthGateEndsTheRun :=
  fun _ hph hshort => step_gate hph hshort

/-! ### The last qualifying record -/

/-- The mode that the record at `idx` captures, if it does (R113, R120). -/
def modeCapture (d : List Byte) (idx : Nat) : Option Byte :=
  if (d.getD idx 0).toNat = 0x14 ∧ 7 ≤ (d.getD (idx + 16) 0).toNat then some (d.getD (idx + 28) 0) else none

/-- The pair that the record at `idx` captures if its type is `ty`, if it does (R114, R115, R117). -/
def fixCapture (ty : Nat) (d : List Byte) (idx : Nat) : Option (Int × Int) :=
  if (d.getD idx 0).toNat = ty then refFix d idx else none

/-- A turn of Extract's loop takes what its record captures, and otherwise keeps the earlier captures (R123). -/
theorem scanWindow_eq (d : List Byte) (c : Captures) (idx : Nat) :
    scanWindow d c idx =
      ⟨(modeCapture d idx).or c.mode, (fixCapture 0x19 d idx).or c.entry, (fixCapture 0x29 d idx).or c.exit⟩ := by
  unfold scanWindow modeCapture fixCapture
  generalize (d.getD idx 0).toNat = ty
  generalize (d.getD (idx + 16) 0).toNat = ver
  by_cases isOpen4 : ty = 0x14
  · by_cases hver : 7 ≤ ver
    · simp [isOpen4, hver]
    · simp [isOpen4, hver]
  by_cases isOpen9 : ty = 0x19
  · simp [isOpen9]
  by_cases isClose9 : ty = 0x29
  · simp [isClose9]
  · simp [isOpen4, isOpen9, isClose9]

/-- One more record takes what it captures, and otherwise keeps what the records before it left (R119, R123). -/
theorem scanRecords_succ_captures (d : List Byte) (n : Nat) :
    scanRecords d (n + 1) =
      ⟨(modeCapture d (32 * n)).or (scanRecords d n).mode, (fixCapture 0x19 d (32 * n)).or (scanRecords d n).entry,
        (fixCapture 0x29 d (32 * n)).or (scanRecords d n).exit⟩ := by
  rw [scanRecords_succ, scanWindow_eq]

/-- A register that starts empty and is overwritten by every `f j` that answers holds the last answer. -/
theorem eq_findSome?_of_overwrite {α : Type} {r f : Nat → Option α} (hzero : r 0 = none)
    (hsucc : ∀ n, r (n + 1) = (f n).or (r n)) (n : Nat) : r n = (List.range n).reverse.findSome? f := by
  induction n with
  | zero => exact hzero
  | succ n ih =>
    rw [hsucc, ih, List.range_succ, List.reverse_concat, List.findSome?_cons]
    cases f n with
    | none => rfl
    | some a => rfl

/-- Settles O45: each capture is a register that the records overwrite. -/
theorem lastQualifyingRecordWins : Obligations.LastQualifyingRecordWins := by
  intro d n
  have hturn := scanRecords_succ_captures d
  exact ⟨eq_findSome?_of_overwrite (r := fun k => (scanRecords d k).mode) rfl
      (fun k => congrArg Captures.mode (hturn k)) n,
    eq_findSome?_of_overwrite (r := fun k => (scanRecords d k).entry) rfl
      (fun k => congrArg Captures.entry (hturn k)) n,
    eq_findSome?_of_overwrite (r := fun k => (scanRecords d k).exit) rfl
      (fun k => congrArg Captures.exit (hturn k)) n⟩

/-! ### Phase SCAN -/

/-- A state at record 0 with nothing captured is its own `scanAt` (R161, R163). -/
theorem State.scanAt_zero_empty (hri : s.ri = 0) (hmode : s.mode = none) (hentry : s.entry = none)
    (hexit : s.exit = none) : s.scanAt 0 .empty = s := by
  cases s
  cases hri; cases hmode; cases hentry; cases hexit
  rfl

/-- Settles O49: the gate's step under 64 bytes, else the run lemma of the scan, and its records for the states on
the way. -/
theorem scanPhaseComputesExtract : Obligations.ScanPhaseComputesExtract := by
  intro s d hph hri hmode hentry hexit hstream hsl
  rcases Nat.lt_or_ge s.sl 64 with hshort | hlong
  · rw [if_pos hshort]
    refine ⟨s.finish none, run_one (step_gate hph hshort), rfl, (extract_of_short (hsl ▸ hshort)).symm,
      fun hlong => absurd hshort (Nat.not_lt.2 hlong), fun _ => ⟨hmode, hentry, hexit⟩, fun j hj => ?_⟩
    rw [Nat.lt_one_iff.1 hj]
    exact ⟨s, run_zero s, hph⟩
  · have hstart := State.scanAt_zero_empty hri hmode hentry hexit
    have hd : 64 ≤ d.length := hsl ▸ hlong
    have hself := State.withStream_self hstream hsl
    obtain ⟨c, hrun, hc⟩ := run_scan_long hph hd
    rw [hself, hstart, ← hsl] at hrun
    rw [if_neg (Nat.not_lt.2 hlong)]
    refine ⟨_, hrun, rfl, ?_, fun _ => ?_, fun hshort => absurd hlong (Nat.not_le.2 hshort), fun j hj => ?_⟩
    · rw [State.finish_res, resultInts_policy, hc, extract_of_long hd]
    · rw [hsl, ← hc]
      exact ⟨rfl, rfl, rfl⟩
    · obtain ⟨c', hrecords, -⟩ := run_records hph hd j (by omega)
      rw [hself, hstart] at hrecords
      exact ⟨_, hrecords, hph⟩

end Sys2Proof.Machine

/-!
PROOFS. The policy step and the rendering of a coordinate (43_finalize.md). FINALIZE is the policy on the captures
(R130). The rendering (R135) rounds once, the quotient by SCALE scaled into `2^52 .. 2^53`; that the rounded number is
the nearest of all numbers of a 53-bit significand is shown at that scale and carried back by the power of two.
-/

namespace Sys2Proof.Machine

/-! ### FINALIZE -/

section Policy

variable {mode : Option Byte} {entry exit : Option Fix}

theorem policy_of_captures {e : Fix} (hmode : mode = some 6) (hentry : entry = some e) :
    policy mode entry exit = some ⟨e, exit⟩ := by
  rw [hmode, hentry]
  rfl

theorem policy_eq_none (h : mode ≠ some 6 ∨ entry = none) : policy mode entry exit = none := by
  refine Option.eq_none_iff_forall_ne_some.2 fun r hr => ?_
  obtain ⟨hmode, hentry, -⟩ := policy_some hr
  rcases h with hno | hno
  · exact hno hmode
  · exact nomatch hno.symm.trans hentry

end Policy

/-- Settles O24: the step at the end of the stream, and the two answers of the policy. -/
theorem finalizeAppliesThePolicy : Obligations.FinalizeAppliesThePolicy := by
  refine ⟨fun s => step_finalize, fun s => ⟨fun e hmode hentry => ?_, fun hno => ?_⟩⟩
  · rw [exec_finalize, policy_of_captures hmode hentry, State.finish]
  · rw [exec_finalize, policy_eq_none hno, State.finish]

/-! ### Rounding to an integer, ties to even -/

section Rounding

variable {d : Nat}

theorem div_eq_quotient_add_remainder (n : Nat) (hd : 0 < d) :
    (n : ℚ) / d = (n / d : ℕ) + (n % d : ℕ) / d := by
  have hne : (d : ℚ) ≠ 0 := Nat.cast_ne_zero.2 hd.ne'
  rw [div_eq_iff hne, add_mul, div_mul_cancel₀ _ hne]
  exact_mod_cast (Nat.div_add_mod' n d).symm

/-- The two comparisons of the rounding, as comparisons of the remainder's part with one half. -/
theorem remainder_compare_half (r : Nat) (hd : 0 < d) :
    (2 * r < d ↔ (r : ℚ) / d < 1 / 2) ∧ (d < 2 * r ↔ (1 / 2 : ℚ) < r / d) := by
  have hdq : (0 : ℚ) < d := Nat.cast_pos.2 hd
  rw [div_lt_div_iff₀ hdq two_pos, div_lt_div_iff₀ two_pos hdq, mul_comm (r : ℚ), one_mul]
  exact ⟨by norm_cast, by norm_cast⟩

/-- The rounded quotient is less than one half away, or it is an even number just one half away. -/
theorem roundNearestEven_error (n : Nat) (hd : 0 < d) :
    |(roundNearestEven n d : ℚ) - n / d| < 1 / 2 ∨
      |(roundNearestEven n d : ℚ) - n / d| = 1 / 2 ∧ roundNearestEven n d % 2 = 0 := by
  obtain ⟨hbelow, habove⟩ := remainder_compare_half (n % d) hd
  have hnonneg : (0 : ℚ) ≤ (n % d : ℕ) / d := by positivity
  have hlt : ((n % d : ℕ) : ℚ) / d < 1 := (div_lt_one (Nat.cast_pos.2 hd)).2 (Nat.cast_lt.2 (Nat.mod_lt n hd))
  simp only [div_eq_quotient_add_remainder n hd, roundNearestEven, hbelow, habove]
  generalize ((n % d : ℕ) : ℚ) / d = r at hnonneg hlt
  split
  next hdown => exact .inl (abs_lt.2 ⟨by linarith, by linarith⟩)
  next hdown =>
    split
    next hup => exact .inl (abs_lt.2 ⟨by push_cast; linarith, by push_cast; linarith⟩)
    next hup =>
      have hr : r = 1 / 2 := le_antisymm (not_lt.1 hup) (not_lt.1 hdown)
      refine .inr ⟨?_, by omega⟩
      rcases Nat.mod_two_eq_zero_or_one (n / d) with heven | hodd
      · norm_num [heven, hr, abs_of_neg]
      · norm_num [hodd, hr]

theorem abs_roundNearestEven_sub_le (n : Nat) (hd : 0 < d) :
    |(roundNearestEven n d : ℚ) - n / d| ≤ 1 / 2 :=
  (roundNearestEven_error n hd).elim le_of_lt fun htie => htie.1.le

theorem roundNearestEven_even_of_tie (n : Nat) (hd : 0 < d)
    (htie : 1 / 2 ≤ |(roundNearestEven n d : ℚ) - n / d|) : roundNearestEven n d % 2 = 0 :=
  (roundNearestEven_error n hd).elim (fun hlt => absurd htie hlt.not_ge) And.right

end Rounding

/-! ### Nearest among the numbers of a 53-bit significand -/

/-- Of two different integers at most one is nearer than one half. -/
theorem one_le_abs_sub_add_abs_sub {j k : ℤ} (h : j ≠ k) (x : ℚ) : 1 ≤ |j - x| + |k - x| :=
  calc (1 : ℚ) ≤ |(j : ℚ) - k| := by exact_mod_cast Int.one_le_abs (sub_ne_zero.2 h)
    _ ≤ |j - x| + |x - k| := abs_sub_le _ _ _
    _ = |j - x| + |k - x| := by rw [abs_sub_comm x]

/-- An integer at most one half away is a nearest integer. -/
theorem abs_sub_le_of_le_half {j : ℤ} {x : ℚ} (hj : |j - x| ≤ 1 / 2) (k : ℤ) : |j - x| ≤ |k - x| := by
  by_cases h : j = k
  · rw [h]
  · linarith [one_le_abs_sub_add_abs_sub h x]

/-- From `2^52` up, a number of a 53-bit significand is an integer or lies below `2^52`, an integer itself. So a
nearest integer is nearest among them all. -/
theorem abs_sub_le_abs_mul_zpow_sub {j : ℤ} {x : ℚ} (hx : 2 ^ 52 ≤ x) (hj : |j - x| ≤ 1 / 2) {q : Nat}
    (hq : q < 2 ^ 53) (e : ℤ) : |j - x| ≤ |(q : ℚ) * 2 ^ e - x| := by
  rcases le_or_gt 0 e with he | he
  · obtain ⟨k, rfl⟩ := Int.eq_ofNat_of_zero_le he
    simpa using abs_sub_le_of_le_half hj (q * 2 ^ k)
  · have hqr : (q : ℚ) ≤ 2 ^ 53 := by exact_mod_cast hq.le
    have hpow : (2 : ℚ) ^ e ≤ 2 ^ (-1 : ℤ) := zpow_le_zpow_right₀ one_le_two (by omega)
    have hsmall : (q : ℚ) * 2 ^ e ≤ 2 ^ 52 :=
      calc (q : ℚ) * 2 ^ e ≤ 2 ^ 53 * 2 ^ (-1 : ℤ) := by gcongr
        _ = 2 ^ 52 := by norm_num
    calc |(j : ℚ) - x| ≤ |((2 ^ 52 : ℤ) : ℚ) - x| := abs_sub_le_of_le_half hj _
      _ = x - 2 ^ 52 := by
        rw [abs_sub_comm, Int.cast_pow, Int.cast_ofNat, abs_of_nonneg (sub_nonneg.2 hx)]
      _ ≤ x - q * 2 ^ e := by linarith
      _ ≤ |(q : ℚ) * 2 ^ e - x| := by rw [abs_sub_comm]; exact le_abs_self _

/-! ### The scaled quotient -/

/-- What the rendering divides by SCALE, rounding once (R135): the magnitude, scaled up. -/
def dividend (m : Nat) : Nat := m * 2 ^ (132 - quotientLog m)

theorem significand_eq (m : Nat) : significand m = roundNearestEven (dividend m) Config.scale := rfl

section Magnitude

variable {m : Nat}

/-- `2^80 * m / 100000` lies between the power of two of `quotientLog` and the next one. -/
theorem quotientLog_spec (hpos : 0 < m) :
    2 ^ quotientLog m * Config.scale ≤ m * 2 ^ 80 ∧ m * 2 ^ 80 < 2 ^ (quotientLog m + 1) * Config.scale := by
  have hne : m * 2 ^ 80 / Config.scale ≠ 0 := by simp only [Config.scale]; omega
  have hscale : 0 < Config.scale := by decide
  rw [← Nat.le_div_iff_mul_le hscale, ← Nat.div_lt_iff_lt_mul hscale]
  exact ⟨Nat.log2_self_le hne, Nat.lt_log2_self⟩

theorem quotientLog_lt (hpos : 0 < m) (hmax : m ≤ 2 ^ 31) : quotientLog m < 95 := by
  rw [quotientLog, Nat.log2_lt (by simp only [Config.scale]; omega), Config.scale]
  omega

theorem dividend_mul_two_pow (hpos : 0 < m) (hmax : m ≤ 2 ^ 31) : dividend m * 2 ^ quotientLog m = m * 2 ^ 132 := by
  have hlog := quotientLog_lt hpos hmax
  rw [dividend, mul_assoc, ← pow_add, Nat.sub_add_cancel (by omega)]

/-- The quotient by SCALE lies in `2^52 .. 2^53`. -/
theorem dividend_bounds (hpos : 0 < m) (hmax : m ≤ 2 ^ 31) :
    2 ^ 52 * Config.scale ≤ dividend m ∧ dividend m < 2 ^ 53 * Config.scale := by
  obtain ⟨hlow, hhigh⟩ := quotientLog_spec hpos
  have hscaled := dividend_mul_two_pow hpos hmax
  rw [Config.scale] at hlow hhigh ⊢
  constructor
  · refine Nat.le_of_mul_le_mul_right (c := 2 ^ quotientLog m) ?_ (by positivity)
    omega
  · refine Nat.lt_of_mul_lt_mul_right (a := 2 ^ quotientLog m) ?_
    omega

/-- Below `2^53 * SCALE`, and a multiple of `2^38` as that bound is, the dividend stays `2^38` below it. -/
theorem dividend_le (hpos : 0 < m) (hmax : m ≤ 2 ^ 31) : dividend m + 2 ^ 38 ≤ 2 ^ 53 * Config.scale := by
  have hlog := quotientLog_lt hpos hmax
  have hlt := (dividend_bounds hpos hmax).2
  obtain ⟨t, ht⟩ : 2 ^ 38 ∣ dividend m := (pow_dvd_pow 2 (by omega)).mul_left m
  rw [Config.scale] at hlt ⊢
  omega

/-- The number that is rounded to the significand, exactly. -/
def scaledQuotient (m : Nat) : ℚ := dividend m / Config.scale

theorem scaledQuotient_ge (hpos : 0 < m) (hmax : m ≤ 2 ^ 31) : 2 ^ 52 ≤ scaledQuotient m := by
  rw [scaledQuotient, le_div_iff₀ (by norm_num)]
  exact_mod_cast (dividend_bounds hpos hmax).1

theorem scaledQuotient_lt (hpos : 0 < m) (hmax : m ≤ 2 ^ 31) : scaledQuotient m < 2 ^ 53 - 1 / 2 := by
  have hle : (dividend m : ℚ) + 2 ^ 38 ≤ 2 ^ 53 * Config.scale := by exact_mod_cast dividend_le hpos hmax
  rw [scaledQuotient, div_lt_iff₀ (by norm_num)]
  rw [Nat.cast_ofNat] at hle ⊢
  linarith

/-- The weight of the last bit of the significand. -/
def lastPlace (m : Nat) : ℚ := 2 ^ ((quotientLog m : ℤ) - 132)

theorem lastPlace_pos (m : Nat) : 0 < lastPlace m := zpow_pos two_pos _

/-- The weight, by the biased exponent that the rendering holds. -/
theorem lastPlace_eq_zpow_exponent (m : Nat) : lastPlace m = 2 ^ (((quotientLog m + 943 : ℕ) : ℤ) - 1075) := by
  have hexponent : ((quotientLog m + 943 : ℕ) : ℤ) - 1075 = quotientLog m - 132 := by omega
  rw [hexponent, lastPlace]

/-- The scaled quotient counts last places of the magnitude in degrees. -/
theorem scaledQuotient_mul_lastPlace (hpos : 0 < m) (hmax : m ≤ 2 ^ 31) :
    scaledQuotient m * lastPlace m = m / Config.scale := by
  have hdividend : (dividend m : ℚ) * 2 ^ quotientLog m = m * 2 ^ 132 := by
    exact_mod_cast dividend_mul_two_pow hpos hmax
  rw [scaledQuotient, lastPlace, zpow_sub₀ two_ne_zero, zpow_natCast, div_mul_div_comm, hdividend]
  exact mul_div_mul_right _ _ (by norm_num)

/-- Distances from the magnitude in degrees are distances from the scaled quotient, in last places. -/
theorem abs_mul_lastPlace_sub (hpos : 0 < m) (hmax : m ≤ 2 ^ 31) (y : ℚ) :
    |y * lastPlace m - m / Config.scale| = |y - scaledQuotient m| * lastPlace m := by
  rw [← scaledQuotient_mul_lastPlace hpos hmax, ← sub_mul, abs_mul, abs_of_pos (lastPlace_pos m)]

/-! ### The significand -/

theorem abs_significand_sub_le (m : Nat) : |(significand m : ℚ) - scaledQuotient m| ≤ 1 / 2 := by
  rw [significand_eq, scaledQuotient]
  exact abs_roundNearestEven_sub_le (dividend m) (by decide)

theorem significand_even_of_tie (htie : 1 / 2 ≤ |(significand m : ℚ) - scaledQuotient m|) :
    significand m % 2 = 0 := by
  rw [significand_eq, scaledQuotient] at htie
  exact roundNearestEven_even_of_tie (dividend m) (by decide) htie

theorem significand_ge (hpos : 0 < m) (hmax : m ≤ 2 ^ 31) : 2 ^ 52 ≤ significand m := by
  have hround := (abs_le.1 (abs_significand_sub_le m)).1
  have hlt : ((2 ^ 52 : ℕ) : ℚ) < (significand m + 1 : ℕ) := by
    push_cast
    linarith [scaledQuotient_ge hpos hmax]
  exact Nat.lt_succ_iff.1 (Nat.cast_lt.1 hlt)

/-- The rounding never carries into the exponent. -/
theorem significand_lt (hpos : 0 < m) (hmax : m ≤ 2 ^ 31) : significand m < 2 ^ 53 := by
  have hround := (abs_le.1 (abs_significand_sub_le m)).2
  have hlt : (significand m : ℚ) < (2 ^ 53 : ℕ) := by
    push_cast
    linarith [scaledQuotient_lt hpos hmax]
  exact Nat.cast_lt.1 hlt

theorem significand_nearest (hpos : 0 < m) (hmax : m ≤ 2 ^ 31) {q : Nat} (hq : q < 2 ^ 53) (e : ℤ) :
    |significand m * lastPlace m - m / Config.scale| ≤ |(q : ℚ) * 2 ^ e - m / Config.scale| := by
  have hscale : (q : ℚ) * 2 ^ e = q * 2 ^ (e - ((quotientLog m : ℤ) - 132)) * lastPlace m := by
    rw [lastPlace, mul_assoc, ← zpow_add₀ two_ne_zero, sub_add_cancel]
  rw [hscale, abs_mul_lastPlace_sub hpos hmax, abs_mul_lastPlace_sub hpos hmax]
  refine mul_le_mul_of_nonneg_right ?_ (lastPlace_pos m).le
  exact abs_sub_le_abs_mul_zpow_sub (j := significand m) (scaledQuotient_ge hpos hmax) (abs_significand_sub_le m) hq _

/-- If another significand is as near, both are half a place away, which is a tie of the rounding. -/
theorem significand_even_of_equally_near (hpos : 0 < m) (hmax : m ≤ 2 ^ 31) {q : Nat} (hne : q ≠ significand m)
    (heq : |significand m * lastPlace m - m / Config.scale| = |q * lastPlace m - m / Config.scale|) :
    significand m % 2 = 0 := by
  rw [abs_mul_lastPlace_sub hpos hmax, abs_mul_lastPlace_sub hpos hmax] at heq
  have hdist := mul_right_cancel₀ (lastPlace_pos m).ne' heq
  have hone := one_le_abs_sub_add_abs_sub (Int.ofNat_inj.not.2 hne) (scaledQuotient m)
  rw [Int.cast_natCast, Int.cast_natCast] at hone
  exact significand_even_of_tie (by linarith)

end Magnitude

/-! ### The rendering -/

theorem natAbs_toInt_le (raw : Raw) : raw.toInt.natAbs ≤ 2 ^ 31 := by
  have hlow := BitVec.le_toInt raw
  have hhigh := BitVec.toInt_lt (x := raw)
  omega

theorem natAbs_toInt_pos {raw : Raw} (h : raw ≠ 0) : 0 < raw.toInt.natAbs :=
  Int.natAbs_pos.2 fun hzero => h (BitVec.toInt_inj.1 hzero)

theorem abs_degrees (raw : Raw) : |degrees raw| = (raw.toInt.natAbs : ℚ) / Config.scale := by
  rw [degrees, abs_div, Nat.abs_cast, Nat.cast_natAbs, Int.cast_abs]

/-- Sign, biased exponent and significand fill the 64 bits without overlap. -/
theorem binary64_toNat {raw : Raw} (h : raw ≠ 0) :
    (binary64 raw).toNat = (if raw.toInt < 0 then 2 ^ 63 else 0) +
      (quotientLog raw.toInt.natAbs + 943) * 2 ^ 52 + (significand raw.toInt.natAbs - 2 ^ 52) := by
  have hpos := natAbs_toInt_pos h
  have hmax := natAbs_toInt_le raw
  have hlog := quotientLog_lt hpos hmax
  have hsig := significand_lt hpos hmax
  rw [binary64, BitVec.toNat_ofNat, binary64Magnitude, if_neg hpos.ne', ← Nat.add_assoc, Nat.mod_eq_of_lt]
  split <;> omega

/-- Settles O52: the significand of the scaled quotient, with the exponent that undoes the scaling. -/
theorem binary64IsTheNearestNumber : Obligations.Binary64IsTheNearestNumber := by
  refine ⟨by decide, fun raw hraw => ?_⟩
  have hpos := natAbs_toInt_pos hraw
  have hmax := natAbs_toInt_le raw
  have hlog := quotientLog_lt hpos hmax
  refine ⟨significand raw.toInt.natAbs, quotientLog raw.toInt.natAbs + 943, significand_ge hpos hmax,
    significand_lt hpos hmax, by omega, by omega, binary64_toNat hraw, ?_⟩
  rw [← lastPlace_eq_zpow_exponent, abs_degrees]
  exact ⟨fun _ e hq => significand_nearest hpos hmax hq e,
    fun _ _ hne => significand_even_of_equally_near hpos hmax hne⟩

end Sys2Proof.Machine

/-!
PROOFS. Exceptions (60_exceptions.md): there are none. A step performs an instruction or makes a move of the phase
machine (R152); a move is a next state, and so is each meaning, XORB without its operands included (R51, R140, R143).
At IDLE and DONE the move is to wait.
-/

namespace Sys2Proof.Machine

variable {s : State}

/-! ### What is chosen is done -/

theorem step_of_perform {i : Instr} (h : s.nextAction = .perform i) : step s = exec i s := by
  rw [step, h]

theorem step_of_move {m : Move} (h : s.nextAction = .move m) : step s = .next (m.apply s) := by
  rw [step, h]

/-! ### No fault and no refusal -/

/-- XORB answers with its two operands and without them, where it ends the phase (R51). -/
theorem exec_xorb_answers_next (s : State) : ∃ t, exec .xorb s = .next t := by
  cases hops : s.xorOperands with
  | some operands => exact ⟨_, exec_xorb_of_operands hops⟩
  | none => exact ⟨_, exec_xorb_of_none hops⟩

theorem exec_answers_next (i : Instr) (s : State) : ∃ t, exec i s = .next t := by
  cases i with
  | endBlock => exact ⟨_, exec_endBlock s⟩
  | zrun n => exact ⟨_, exec_zrun n s⟩
  | lit b => exact ⟨_, exec_lit b s⟩
  | open4 ver mode => exact ⟨_, exec_open4 ver mode s⟩
  | open9 lat lon => exact ⟨_, exec_open9 lat lon s⟩
  | close9 lat lon => exact ⟨_, exec_close9 lat lon s⟩
  | skip ty => exact ⟨_, exec_skip ty s⟩
  | xorb => exact exec_xorb_answers_next s
  | start => exact ⟨_, exec_start s⟩
  | finalize => exact ⟨_, exec_finalize s⟩

theorem step_answers_next (s : State) : ∃ t, step s = .next t := by
  cases haction : s.nextAction with
  | perform i =>
    rw [step_of_perform haction]
    exact exec_answers_next i s
  | move m => exact ⟨_, step_of_move haction⟩

/-- Settles O32: every meaning answers a next state, hence every step, which performs a meaning or makes a move. -/
theorem everyStepAnswersANextState : Obligations.EveryStepAnswersANextState :=
  fun s => ⟨step_answers_next s, fun i => exec_answers_next i s⟩

/-! ### Waiting -/

/-- Settles O14: at IDLE and DONE the host may act, and without its START the step is the wait. -/
theorem idleAndDoneWait : Obligations.IdleAndDoneWait := by
  intro s hph hreq
  have hhost : s.hostMayAct = true := (State.hostMayAct_iff s).2 hph
  exact step_wait hhost hreq

end Sys2Proof.Machine

/-!
PROOFS. Reset, START and the host (70_reset_and_hazards.md). Reset leaves a state of the invariant (R160). The host acts
between runs only (R161, R164): each of its actions is given once by its effect where the host is free, and where it is
not free nothing happens (log entry 4). Last, the length gate: a stream under 64 bytes has at most one record, and one
record fills at most one capture register (R168).
-/

namespace Sys2Proof.Machine

variable {s : State}

/-! ### Reset -/

/-- Settles O28: the registers of the reset state. -/
theorem resetLeavesTheStatedValues : Obligations.ResetLeavesTheStatedValues :=
  ⟨State.reset_ph, State.reset_cb, State.reset_bc, State.reset_stream, State.reset_sl, State.reset_xi, State.reset_ri,
    rfl, rfl, rfl, rfl, rfl⟩

theorem Inv.reset : Inv State.reset where
  inpWf := State.reset_memories_wf.1
  streamFull := rfl
  cbGrid := rfl
  bcGrid := rfl
  bcMax := Nat.zero_le _
  xiMin := le_rfl
  xiMax := le_max_left _ _
  riGrid := rfl
  riMax := le_rfl
  reqIdle := nofun
  idleFresh _ := ⟨rfl, rfl, rfl⟩
  xiFresh _ := rfl
  scanFresh _ := ⟨rfl, rfl, rfl, rfl⟩
  xorComplete := by simp
  cursorInside _ := Nat.zero_le _
  cbMax _ := by simp
  slMax := Nat.zero_le _
  entryFix := nofun
  exitFix := nofun
  resFresh _ := rfl
  resShape := nofun

/-- Settles O29: field by field. -/
theorem invHoldsAtReset : Obligations.InvHoldsAtReset := Inv.reset

/-! ### START -/

/-- The phases of the host are not the phases of a run (R11, R57). -/
theorem Phase.not_running_of_host {p : Phase} (h : p = .idle ∨ p = .done) : ¬ p.running := by
  rcases h with rfl | rfl <;> simp [Phase.running]

/-- Settles O25: the host may act, so START answers the state `State.started`. -/
theorem startBeginsAFreshRun : Obligations.StartBeginsAFreshRun := by
  intro s hph
  rw [exec_start, if_pos ((State.hostMayAct_iff s).2 hph)]
  rfl

/-- Settles O26: in a running phase the host may not act. -/
theorem startDuringARunIsIgnored : Obligations.StartDuringARunIsIgnored := by
  intro s hrun
  have hbusy : ¬ s.hostMayAct = true :=
    fun hm => Phase.not_running_of_host ((State.hostMayAct_iff s).1 hm) hrun
  rw [exec_start, if_neg hbusy]

/-! ### The host's actions where it is free -/

section HostFree

variable (hfree : s.hostFree = true)
include hfree

theorem State.hostWriteInput_of_free (a : Nat) (b : Byte) :
    s.hostWriteInput a b = { s with inp := s.inp.write a b } := if_pos hfree

theorem State.hostWriteLen_of_free (n : Nat) : s.hostWriteLen n = { s with len := n } := if_pos hfree

theorem State.hostLoad_of_free (bs : List Byte) :
    s.hostLoad bs = { s with inp := s.inp.writeBytes 0 bs, len := bs.length } := if_pos hfree

theorem State.hostStart_of_free : s.hostStart = { s with startReq := true } := if_pos hfree

end HostFree

/-! ### The host keeps the invariant -/

/-- Between runs the invariant bounds nothing by the input (R81, R87), so the host may put any input there. -/
theorem Inv.withInput (hi : Inv s) (hph : s.ph = .idle ∨ s.ph = .done) {m : Memory} (hm : m.wf) (n : Nat) :
    Inv { s with inp := m, len := n } :=
  { hi with
    inpWf := hm
    cursorInside := fun hrun => absurd hrun (Phase.not_running_of_host hph)
    cbMax := fun hrun => absurd hrun (Phase.not_running_of_host hph) }

theorem Inv.withRequest (hi : Inv s) (hph : s.ph = .idle ∨ s.ph = .done) : Inv { s with startReq := true } :=
  { hi with reqIdle := fun _ => (State.hostMayAct_iff s).2 hph }

/-- Settles O31: a free host writes the input or sets the request bit; any other is ignored. -/
theorem invKeptByTheHost : Obligations.InvKeptByTheHost := by
  intro s a n b bs hi
  cases hfree : s.hostFree with
  | true =>
    obtain ⟨hph, -⟩ := (State.hostFree_iff s).1 hfree
    rw [State.hostWriteInput_of_free hfree, State.hostWriteLen_of_free hfree, State.hostLoad_of_free hfree,
      State.hostStart_of_free hfree]
    exact ⟨hi.withInput hph (Memory.wf_write hi.inpWf a b) s.len, hi.withInput hph hi.inpWf n,
      hi.withInput hph (Memory.wf_writeBytes hi.inpWf 0 bs) bs.length, hi.withRequest hph⟩
  | false =>
    rw [s.hostWriteInput_ignored a b hfree, s.hostWriteLen_ignored n hfree, s.hostLoad_ignored bs hfree,
      s.hostStart_ignored hfree]
    exact ⟨hi, hi, hi, hi⟩

/-! ### The loaded input -/

/-- A loaded byte is the one the host loaded at its address: none is the free value of log entry 2. -/
theorem State.inputBytes_hostLoad (hfree : s.hostFree = true) (bs : List Byte) : (s.hostLoad bs).inputBytes = bs := by
  rw [State.hostLoad_of_free hfree]
  refine List.ext_getElem? fun i => ?_
  rw [← State.inByte_eq]
  by_cases hi : i < bs.length
  · simp [State.inByte, Memory.read_writeBytes, hi]
  · simp [State.inByte, hi]

/-- A load leaves the phase and the request bit, so the host stays free to START (R164). -/
theorem State.hostLoad_frame (s : State) (bs : List Byte) :
    (s.hostLoad bs).ph = s.ph ∧ (s.hostLoad bs).hostFree = s.hostFree := by
  unfold State.hostLoad
  split
  · exact ⟨rfl, rfl⟩
  · exact ⟨rfl, rfl⟩

/-- Settles O40: the load is free, and START after it sets the request bit only. -/
theorem loadedInputIsWhatTheBlockSees : Obligations.LoadedInputIsWhatTheBlockSees := by
  intro s bs hph hreq
  have hfree : s.hostFree = true := (State.hostFree_iff s).2 ⟨hph, hreq⟩
  obtain ⟨hsame, hstill⟩ := s.hostLoad_frame bs
  rw [State.hostStart_of_free (hstill.trans hfree)]
  exact ⟨State.inputBytes_hostLoad hfree bs, rfl, hsame⟩

/-! ### The length gate -/

/-- A record has one type, so it captures no mode or no entry fix (R24, R69). -/
theorem modeCapture_none_or_entry_none (d : List Byte) (idx : Nat) :
    modeCapture d idx = none ∨ fixCapture 0x19 d idx = none := by
  by_cases isOpen4 : (d.getD idx 0).toNat = 0x14
  · exact .inr (if_neg (by omega))
  · exact .inl (if_neg fun hqualifies => isOpen4 hqualifies.1)

/-- A scan of at most one record fills at most one of the two registers (R168). -/
theorem scanRecords_mode_none_or_entry_none (d : List Byte) {n : Nat} (hn : n ≤ 1) :
    (scanRecords d n).mode = none ∨ (scanRecords d n).entry = none := by
  rcases Nat.le_one_iff_eq_zero_or_eq_one.1 hn with rfl | rfl
  · exact .inl rfl
  · have hturn := scanRecords_succ_captures d 0
    rw [Nat.zero_add] at hturn
    rw [hturn]
    simpa [scanRecords] using modeCapture_none_or_entry_none d 0

/-- Settles O46: under 64 bytes there is at most one whole record. -/
theorem lengthGateNeverChangesTheResult : Obligations.LengthGateNeverChangesTheResult := by
  intro d hshort
  have hone : d.length / 32 ≤ 1 := by omega
  rcases scanRecords_mode_none_or_entry_none d hone with hmode | hentry
  · exact .inl (by simp [hmode])
  · exact .inr hentry

end Sys2Proof.Machine
